-- ==== Sys2Proof/Word.lean ====
section
/-! DEFINITION. The word types of the machine (10_state.md, 30_encoding.md R71) and the zero extension of R7.
Bit vectors stand for what the spec treats as bits; a register number or a row count is a `Fin`. -/

namespace Sys2Proof

/-- An 8-bit value: a general register, a timer, a byte of memory, the field `NN`. -/
abbrev Byte := BitVec 8

/-- A 16-bit value: the opcode, `PC`, `I`, a stack slot. -/
abbrev Word := BitVec 16

/-- A 4-bit field of the opcode (R71; "**Nibble**: a 4-bit field of the opcode used for decoding", R16). -/
abbrev Nibble := BitVec 4

/-- The 12-bit field `NNN` (R71). -/
abbrev Addr12 := BitVec 12

/-- The number of a general register, V0 to VF (R20). -/
abbrev Reg := Fin 16

/-- The number of rows of a sprite, the field `N`, 0 to 15 (R72: "`N` is a 4-bit count, 0 to 15"). -/
abbrev RowCount := Fin 16

/-- VF, the register that doubles as the flag output (R23: "VF is `V[15]` itself"). -/
abbrev VF : Reg := 15

/-- V0, the register BNNN adds (R118). -/
abbrev V0 : Reg := 0

/-- `zext_16` of R7, on a byte. -/
abbrev zextByte (b : Byte) : Word := b.setWidth 16

/-- `zext_16` of R7, on a 12-bit address. -/
abbrev zextAddr (a : Addr12) : Word := a.setWidth 16

end Sys2Proof
end

