-- ==== Sys2Proof/Syntax.lean ====
section
/-! DEFINITION. The instructions: one constructor for each of the 34 rows of the opcode map (30_encoding.md R80), in the
table's order. An operand has exactly the width of its field (R71), so no operand value lies outside its encoding. -/

namespace Sys2Proof

/-- An instruction of the opcode map R80. `x`, `y` are register numbers, `nn` the immediate byte, `nnn` the 12-bit
address, `n` the number of sprite rows. -/
inductive Instr where
  | cls                                      -- 00E0
  | ret                                      -- 00EE
  | jp (nnn : Addr12)                        -- 1NNN
  | call (nnn : Addr12)                      -- 2NNN
  | seVxNn (x : Reg) (nn : Byte)             -- 3XNN
  | sneVxNn (x : Reg) (nn : Byte)            -- 4XNN
  | seVxVy (x y : Reg)                       -- 5XY0
  | ldVxNn (x : Reg) (nn : Byte)             -- 6XNN
  | addVxNn (x : Reg) (nn : Byte)            -- 7XNN
  | ldVxVy (x y : Reg)                       -- 8XY0
  | or (x y : Reg)                           -- 8XY1
  | and (x y : Reg)                          -- 8XY2
  | xor (x y : Reg)                          -- 8XY3
  | addVxVy (x y : Reg)                      -- 8XY4
  | sub (x y : Reg)                          -- 8XY5
  | shr (x y : Reg)                          -- 8XY6; `y` is a field of the word that the effect ignores (R77)
  | subn (x y : Reg)                         -- 8XY7
  | shl (x y : Reg)                          -- 8XYE; `y` is a field of the word that the effect ignores (R77)
  | sneVxVy (x y : Reg)                      -- 9XY0
  | ldINnn (nnn : Addr12)                    -- ANNN
  | jpV0 (nnn : Addr12)                      -- BNNN
  | rnd (x : Reg) (nn : Byte)                -- CXNN
  | drw (x y : Reg) (n : RowCount)           -- DXYN
  | skp (x : Reg)                            -- EX9E
  | sknp (x : Reg)                           -- EXA1
  | ldVxDt (x : Reg)                         -- FX07
  | ldVxK (x : Reg)                          -- FX0A
  | ldDtVx (x : Reg)                         -- FX15
  | ldStVx (x : Reg)                         -- FX18
  | addIVx (x : Reg)                         -- FX1E
  | ldFVx (x : Reg)                          -- FX29
  | ldBVx (x : Reg)                          -- FX33
  | ldMiVx (x : Reg)                         -- FX55
  | ldVxMi (x : Reg)                         -- FX65
  deriving DecidableEq, Repr

end Sys2Proof
end

