-- ==== Sys2Proof/WellFormed.lean ====
section
/-! DEFINITION. What a well-formed word and a well-formed instruction are. The opcode map of 30_encoding.md R80 stands here
as rows of match and mask; a word is well formed when a row recognizes it (R75). An instruction's operands have the
widths of their fields by their types, so the check on an instruction can fail for no term. -/

namespace Sys2Proof

/-- A row of the opcode map R80: the words it recognizes are those with `op &&& mask = mtch` (R75). -/
structure OpcodeRow where
  mnemonic : String
  mtch : Word
  mask : Word
  deriving DecidableEq, Repr

/-- The complete opcode map of R80, in its order. -/
def opcodeTable : Vector OpcodeRow 34 :=
  #v[⟨"CLS", 0x00E0, 0xFFFF⟩,
    ⟨"RET", 0x00EE, 0xFFFF⟩,
    ⟨"JP", 0x1000, 0xF000⟩,
    ⟨"CALL", 0x2000, 0xF000⟩,
    ⟨"SE_VX_NN", 0x3000, 0xF000⟩,
    ⟨"SNE_VX_NN", 0x4000, 0xF000⟩,
    ⟨"SE_VX_VY", 0x5000, 0xF00F⟩,
    ⟨"LD_VX_NN", 0x6000, 0xF000⟩,
    ⟨"ADD_VX_NN", 0x7000, 0xF000⟩,
    ⟨"LD_VX_VY", 0x8000, 0xF00F⟩,
    ⟨"OR", 0x8001, 0xF00F⟩,
    ⟨"AND", 0x8002, 0xF00F⟩,
    ⟨"XOR", 0x8003, 0xF00F⟩,
    ⟨"ADD_VX_VY", 0x8004, 0xF00F⟩,
    ⟨"SUB", 0x8005, 0xF00F⟩,
    ⟨"SHR", 0x8006, 0xF00F⟩,
    ⟨"SUBN", 0x8007, 0xF00F⟩,
    ⟨"SHL", 0x800E, 0xF00F⟩,
    ⟨"SNE_VX_VY", 0x9000, 0xF00F⟩,
    ⟨"LD_I_NNN", 0xA000, 0xF000⟩,
    ⟨"JP_V0", 0xB000, 0xF000⟩,
    ⟨"RND", 0xC000, 0xF000⟩,
    ⟨"DRW", 0xD000, 0xF000⟩,
    ⟨"SKP", 0xE09E, 0xF0FF⟩,
    ⟨"SKNP", 0xE0A1, 0xF0FF⟩,
    ⟨"LD_VX_DT", 0xF007, 0xF0FF⟩,
    ⟨"LD_VX_K", 0xF00A, 0xF0FF⟩,
    ⟨"LD_DT_VX", 0xF015, 0xF0FF⟩,
    ⟨"LD_ST_VX", 0xF018, 0xF0FF⟩,
    ⟨"ADD_I_VX", 0xF01E, 0xF0FF⟩,
    ⟨"LD_F_VX", 0xF029, 0xF0FF⟩,
    ⟨"LD_B_VX", 0xF033, 0xF0FF⟩,
    ⟨"LD_MI_VX", 0xF055, 0xF0FF⟩,
    ⟨"LD_VX_MI", 0xF065, 0xF0FF⟩]

/-- R75: the row recognizes the word. -/
def OpcodeRow.recognizes (r : OpcodeRow) (op : Word) : Bool := op &&& r.mask == r.mtch

/-- R75: "An opcode is recognized exactly when `(op & mask) = match` for a row of the table of rule R80". -/
def recognizedWord (op : Word) : Bool := opcodeTable.toList.any (·.recognizes op)

/-- The index of the instruction's row in the opcode map (the column # of R80, less one). -/
def Instr.rowIndex : Instr → Fin 34
  | .cls => 0
  | .ret => 1
  | .jp _ => 2
  | .call _ => 3
  | .seVxNn _ _ => 4
  | .sneVxNn _ _ => 5
  | .seVxVy _ _ => 6
  | .ldVxNn _ _ => 7
  | .addVxNn _ _ => 8
  | .ldVxVy _ _ => 9
  | .or _ _ => 10
  | .and _ _ => 11
  | .xor _ _ => 12
  | .addVxVy _ _ => 13
  | .sub _ _ => 14
  | .shr _ _ => 15
  | .subn _ _ => 16
  | .shl _ _ => 17
  | .sneVxVy _ _ => 18
  | .ldINnn _ => 19
  | .jpV0 _ => 20
  | .rnd _ _ => 21
  | .drw _ _ _ => 22
  | .skp _ => 23
  | .sknp _ => 24
  | .ldVxDt _ => 25
  | .ldVxK _ => 26
  | .ldDtVx _ => 27
  | .ldStVx _ => 28
  | .addIVx _ => 29
  | .ldFVx _ => 30
  | .ldBVx _ => 31
  | .ldMiVx _ => 32
  | .ldVxMi _ => 33

/-- The instruction's row of the opcode map. -/
def Instr.row (i : Instr) : OpcodeRow := opcodeTable[i.rowIndex]

/-- The instruction's mnemonic, as the opcode map spells it (R80; R18: labels only, they carry no meaning). -/
def Instr.mnemonic (i : Instr) : String := i.row.mnemonic

/-- A register number has a value of the 4-bit fields `X` and `Y`. -/
def regWf (r : Reg) : Bool := decide (r.val < 16)

/-- An instruction is well formed when each operand has a value of its field (R71). The operand types grant it. -/
def Instr.wf : Instr → Bool
  | .cls => true
  | .ret => true
  | .jp nnn => decide (nnn.toNat < 4096)
  | .call nnn => decide (nnn.toNat < 4096)
  | .seVxNn x nn => regWf x && decide (nn.toNat < 256)
  | .sneVxNn x nn => regWf x && decide (nn.toNat < 256)
  | .seVxVy x y => regWf x && regWf y
  | .ldVxNn x nn => regWf x && decide (nn.toNat < 256)
  | .addVxNn x nn => regWf x && decide (nn.toNat < 256)
  | .ldVxVy x y => regWf x && regWf y
  | .or x y => regWf x && regWf y
  | .and x y => regWf x && regWf y
  | .xor x y => regWf x && regWf y
  | .addVxVy x y => regWf x && regWf y
  | .sub x y => regWf x && regWf y
  | .shr x y => regWf x && regWf y
  | .subn x y => regWf x && regWf y
  | .shl x y => regWf x && regWf y
  | .sneVxVy x y => regWf x && regWf y
  | .ldINnn nnn => decide (nnn.toNat < 4096)
  | .jpV0 nnn => decide (nnn.toNat < 4096)
  | .rnd x nn => regWf x && decide (nn.toNat < 256)
  | .drw x y n => regWf x && regWf y && decide (n.val < 16)
  | .skp x => regWf x
  | .sknp x => regWf x
  | .ldVxDt x => regWf x
  | .ldVxK x => regWf x
  | .ldDtVx x => regWf x
  | .ldStVx x => regWf x
  | .addIVx x => regWf x
  | .ldFVx x => regWf x
  | .ldBVx x => regWf x
  | .ldMiVx x => regWf x
  | .ldVxMi x => regWf x

end Sys2Proof
end

