-- ==== Sys2Proof/Decode.lean ====
section
/-! DEFINITION. Decoding and encoding (30_encoding.md). The decoder is the two-level dispatch of R74 and R93, strict on every
fixed bit (R75); the encoder is R82, written from the match values of the opcode map R80. -/

namespace Sys2Proof

/-! ### The fields of an opcode (R71) -/

/-- `F = op[15:12]`, the first dispatch key. -/
def fieldF (op : Word) : Nibble := op.extractLsb' 12 4

/-- `X = op[11:8]`, a register number. -/
def fieldX (op : Word) : Reg := (op.extractLsb' 8 4).toFin

/-- `Y = op[7:4]`, a register number. -/
def fieldY (op : Word) : Reg := (op.extractLsb' 4 4).toFin

/-- `N = op[3:0]`, the sub-key of group 8 and, in groups 5 and 9, the nibble that must be 0. -/
def fieldN (op : Word) : Nibble := op.extractLsb' 0 4

/-- `N` as the number of sprite rows (R72). -/
def fieldRows (op : Word) : RowCount := (fieldN op).toFin

/-- `NN = op[7:0]`, the immediate byte and the sub-key of groups E and F. -/
def fieldNN (op : Word) : Byte := op.extractLsb' 0 8

/-- `NNN = op[11:0]`, the address. -/
def fieldNNN (op : Word) : Addr12 := op.extractLsb' 0 12

/-! ### Decode (R74, R75, R93) -/

/-- Group 0: the second key is `NNN`; "`F = 0`: 00E0, 00EE, else unrecognized" (R93). -/
def decodeGroup0 (op : Word) : Option Instr :=
  if fieldNNN op = 0x0E0 then some .cls
  else if fieldNNN op = 0x0EE then some .ret
  else none

/-- Group 8: the second key is `N`; "`N` in {0, 1, 2, 3, 4, 5, 6, 7, E}, else unrecognized" (R93). -/
def decodeGroup8 (op : Word) : Option Instr :=
  if fieldN op = 0x0 then some (.ldVxVy (fieldX op) (fieldY op))
  else if fieldN op = 0x1 then some (.or (fieldX op) (fieldY op))
  else if fieldN op = 0x2 then some (.and (fieldX op) (fieldY op))
  else if fieldN op = 0x3 then some (.xor (fieldX op) (fieldY op))
  else if fieldN op = 0x4 then some (.addVxVy (fieldX op) (fieldY op))
  else if fieldN op = 0x5 then some (.sub (fieldX op) (fieldY op))
  else if fieldN op = 0x6 then some (.shr (fieldX op) (fieldY op))
  else if fieldN op = 0x7 then some (.subn (fieldX op) (fieldY op))
  else if fieldN op = 0xE then some (.shl (fieldX op) (fieldY op))
  else none

/-- Group E: the second key is `NN`; "`NN` in {9E, A1}, else unrecognized" (R93). -/
def decodeGroupE (op : Word) : Option Instr :=
  if fieldNN op = 0x9E then some (.skp (fieldX op))
  else if fieldNN op = 0xA1 then some (.sknp (fieldX op))
  else none

/-- Group F: the second key is `NN`; "`NN` in {07, 0A, 15, 18, 1E, 29, 33, 55, 65}, else unrecognized" (R93). -/
def decodeGroupF (op : Word) : Option Instr :=
  if fieldNN op = 0x07 then some (.ldVxDt (fieldX op))
  else if fieldNN op = 0x0A then some (.ldVxK (fieldX op))
  else if fieldNN op = 0x15 then some (.ldDtVx (fieldX op))
  else if fieldNN op = 0x18 then some (.ldStVx (fieldX op))
  else if fieldNN op = 0x1E then some (.addIVx (fieldX op))
  else if fieldNN op = 0x29 then some (.ldFVx (fieldX op))
  else if fieldNN op = 0x33 then some (.ldBVx (fieldX op))
  else if fieldNN op = 0x55 then some (.ldMiVx (fieldX op))
  else if fieldNN op = 0x65 then some (.ldVxMi (fieldX op))
  else none

/-- The instruction a 16-bit opcode spells, or none when it is unrecognized (R75, R78): the first-level cases of R93. -/
def decodeWord (op : Word) : Option Instr :=
  if fieldF op = 0x0 then decodeGroup0 op
  else if fieldF op = 0x1 then some (.jp (fieldNNN op))
  else if fieldF op = 0x2 then some (.call (fieldNNN op))
  else if fieldF op = 0x3 then some (.seVxNn (fieldX op) (fieldNN op))
  else if fieldF op = 0x4 then some (.sneVxNn (fieldX op) (fieldNN op))
  else if fieldF op = 0x5 then if fieldN op = 0 then some (.seVxVy (fieldX op) (fieldY op)) else none
  else if fieldF op = 0x6 then some (.ldVxNn (fieldX op) (fieldNN op))
  else if fieldF op = 0x7 then some (.addVxNn (fieldX op) (fieldNN op))
  else if fieldF op = 0x8 then decodeGroup8 op
  else if fieldF op = 0x9 then if fieldN op = 0 then some (.sneVxVy (fieldX op) (fieldY op)) else none
  else if fieldF op = 0xA then some (.ldINnn (fieldNNN op))
  else if fieldF op = 0xB then some (.jpV0 (fieldNNN op))
  else if fieldF op = 0xC then some (.rnd (fieldX op) (fieldNN op))
  else if fieldF op = 0xD then some (.drw (fieldX op) (fieldY op) (fieldRows op))
  else if fieldF op = 0xE then decodeGroupE op
  else decodeGroupF op

/-- Why the decoder reads no instruction from a sequence of bytes. -/
inductive DecodeReject where
  /-- Fewer than the two bytes that every instruction has (R70). -/
  | truncated
  /-- The opcode matches no row of the opcode map (R75, R78). A step reports it as UnknownOpcode (R220). -/
  | unrecognized (op : Word)
  deriving DecidableEq, Repr

/-- The opcode of two bytes, `(hi << 8) | lo` (R91): big-endian, "the byte at the lower address is the high byte" (R55). -/
def wordOfBytes (hi lo : Byte) : Word := (zextByte hi <<< 8) ||| zextByte lo

/-- The high byte of an opcode, which stands at the lower address (R55). -/
def highByte (op : Word) : Byte := op.extractLsb' 8 8

/-- The low byte of an opcode, which stands at the higher address (R55). -/
def lowByte (op : Word) : Byte := op.extractLsb' 0 8

/-- Decode the instruction at the head of any sequence of bytes; "a decoder always consumes exactly 2 bytes" (R70). -/
def decode : List Byte → Except DecodeReject (Instr × List Byte)
  | hi :: lo :: rest =>
    match decodeWord (wordOfBytes hi lo) with
    | some i => .ok (i, rest)
    | none => .error (.unrecognized (wordOfBytes hi lo))
  | _ => .error .truncated

/-! ### Encode (R82) -/

/-- `op = match | (X << 8) | (Y << 4) | N` (R82). -/
def encodeXYN (mtch : Word) (x y n : Fin 16) : Word :=
  mtch ||| (BitVec.ofNat 16 x.val <<< 8) ||| (BitVec.ofNat 16 y.val <<< 4) ||| BitVec.ofNat 16 n.val

/-- `op = match | (X << 8) | NN` (R82). -/
def encodeXNN (mtch : Word) (x : Reg) (nn : Byte) : Word :=
  mtch ||| (BitVec.ofNat 16 x.val <<< 8) ||| nn.setWidth 16

/-- `op = match | NNN` (R82). -/
def encodeNNN (mtch : Word) (nnn : Addr12) : Word := mtch ||| nnn.setWidth 16

/-- `op = match | (X << 8)` (R82). -/
def encodeX (mtch : Word) (x : Reg) : Word := mtch ||| (BitVec.ofNat 16 x.val <<< 8)

/-- The opcode of an instruction (R82, with the match values of R80). -/
def encode : Instr → Word
  | .cls => 0x00E0
  | .ret => 0x00EE
  | .jp nnn => encodeNNN 0x1000 nnn
  | .call nnn => encodeNNN 0x2000 nnn
  | .seVxNn x nn => encodeXNN 0x3000 x nn
  | .sneVxNn x nn => encodeXNN 0x4000 x nn
  | .seVxVy x y => encodeXYN 0x5000 x y 0
  | .ldVxNn x nn => encodeXNN 0x6000 x nn
  | .addVxNn x nn => encodeXNN 0x7000 x nn
  | .ldVxVy x y => encodeXYN 0x8000 x y 0
  | .or x y => encodeXYN 0x8000 x y 1
  | .and x y => encodeXYN 0x8000 x y 2
  | .xor x y => encodeXYN 0x8000 x y 3
  | .addVxVy x y => encodeXYN 0x8000 x y 4
  | .sub x y => encodeXYN 0x8000 x y 5
  | .shr x y => encodeXYN 0x8000 x y 6
  | .subn x y => encodeXYN 0x8000 x y 7
  | .shl x y => encodeXYN 0x8000 x y 0xE
  | .sneVxVy x y => encodeXYN 0x9000 x y 0
  | .ldINnn nnn => encodeNNN 0xA000 nnn
  | .jpV0 nnn => encodeNNN 0xB000 nnn
  | .rnd x nn => encodeXNN 0xC000 x nn
  | .drw x y n => encodeXYN 0xD000 x y n
  | .skp x => encodeX 0xE09E x
  | .sknp x => encodeX 0xE0A1 x
  | .ldVxDt x => encodeX 0xF007 x
  | .ldVxK x => encodeX 0xF00A x
  | .ldDtVx x => encodeX 0xF015 x
  | .ldStVx x => encodeX 0xF018 x
  | .addIVx x => encodeX 0xF01E x
  | .ldFVx x => encodeX 0xF029 x
  | .ldBVx x => encodeX 0xF033 x
  | .ldMiVx x => encodeX 0xF055 x
  | .ldVxMi x => encodeX 0xF065 x

/-- The two bytes of an instruction as memory holds them, "high byte first" (R82, R55). -/
def encodeBytes (i : Instr) : List Byte := [highByte (encode i), lowByte (encode i)]

/-- The instruction the decoder reads from an instruction whose `nbits` table bits are `w`, numbered as
spec/opcode_table.json numbers them (bit 0 the least significant bit of the 16-bit opcode); a bit above `nbits` is 0. -/
def decodeTableWord (nbits w : Nat) : Option Instr :=
  let op : Word := BitVec.ofNat 16 (w % 2 ^ nbits)
  match decode [highByte op, lowByte op] with
  | .ok (i, _) => some i
  | .error _ => none

end Sys2Proof
end

