-- ==== Sys2Proof/Config.lean ====
section
/-! DEFINITION. The fixed parameters of the block (00_scope.md R5) and its free values (R6, 93_implementation_defined.md). -/

namespace Sys2Proof

/-- `FONT`: the 80 font bytes, a parameter of the block (R5, R6; 92_eei_decisions.md D9). The model takes it as an
argument: it stands in `State.font`, which no instruction and no host operation writes (assumption 1). -/
abbrev Font := Vector Byte 80

namespace Config

/-- `MEM_SIZE`: 4096 bytes, addresses 0x000 to 0xFFF (R5, R50). -/
@[simp] abbrev memSize : Nat := 4096

/-- `FONT_LIMIT`, exclusive: the font fills 0x000 to 0x04F (R5, R51). -/
@[simp] abbrev fontLimit : Nat := 0x050

/-- `FONT_GLYPH_BYTES`: five bytes a glyph (R5). -/
@[simp] abbrev fontGlyphBytes : Nat := 5

/-- `PROG_BASE`: program bytes load from 0x200 (R5, R253). -/
@[simp] abbrev progBase : Nat := 0x200

/-- `RESET_PC` (R5, R250). -/
@[simp] abbrev resetPc : Word := 0x200

/-- `ROM_MAX`: 3584 bytes (R5, R253). -/
@[simp] abbrev romMax : Nat := 3584

/-- `FB_WIDTH` (R5, R32). -/
@[simp] abbrev fbWidth : Nat := 64

/-- `FB_HEIGHT` (R5, R32). -/
@[simp] abbrev fbHeight : Nat := 32

/-- `FB_CELLS` (R5, R32). -/
@[simp] abbrev fbCells : Nat := 2048

/-- `STACK_DEPTH` (R5, R28). -/
@[simp] abbrev stackDepth : Nat := 16

/-- `NUM_KEYS` (R5, R31). -/
@[simp] abbrev numKeys : Nat := 16

/-- FREE VALUE. The byte the random source supplies to step number `k` when the host has put no byte in
`State.randIn` (R6, R11, R143; U5 "any value (a draw, supplied as the `rand` input of each Step)"; assumption 2). It
has no body, so nothing can be proved of its values. -/
opaque randomByte : Nat → Byte

/-- `STEP_CADENCE`: the host's steps per second, an OPEN parameter on which no rule of the block depends (R5, R232, D25,
U13). No definition of the model reads it (assumption 13). -/
opaque stepCadence : Nat

end Config

end Sys2Proof
end

