-- ==== Sys2Proof/Machine/State.lean ====
section
/-! DEFINITION. The architectural state (10_state.md, 20_memory.md), the inputs and the output of a step that the model holds
beside it, the reasons a step can stop, and the state after Reset (10_state.md R36, 70_reset_and_hazards.md R250). -/

namespace Sys2Proof.Machine

/-- Memory: the bytes that differ from the reset image, as (address, byte) pairs in rising order of address (R50;
canonical form `Memory.wf`). An address not listed reads as the reset image (`Memory.resetImage`). -/
abbrev Memory := List Host.Cell

/-- The 2048 framebuffer cells (R32) as 32 rows of 64 one-bit cells: cell `FB[x + y*64]` is bit `x` of row `y`. -/
abbrev Framebuffer := Vector (BitVec 64) 32

/-- The record a Step returns (R11, R97). -/
structure StepEvent where
  /-- `redraw_pending`: "the redraw flag after the step". -/
  redrawPending : Bool
  /-- `tone`: this step's timer pass emitted a tone (R231). -/
  tone : Bool
  /-- `unknown_opcode`: the opcode, when it was unrecognized (R96, R220). -/
  unknownOpcode : Option Word
  /-- `stack_fault`: the opcode of a call with a full stack or a return with an empty one (R222). -/
  stackFault : Option Word
  deriving DecidableEq, Repr

/-- The event record every step begins with (R90: `ev <- { redraw_pending: 0, tone: 0, ... none }`). -/
def StepEvent.empty : StepEvent :=
  { redrawPending := false, tone := false, unknownOpcode := none, stackFault := none }

/-- What the spec gives the machine, and four fields of the model's own (`font`, `randIn`, `stepNo`, `ev`), which hold the
parameter, the inputs and the output of R6 and R11. -/
structure State where
  /-- `FONT`, the parameter of R5 and R6; nothing writes it (assumption 1). -/
  font : Font
  /-- `MEM[0x000..0xFFF]` (R50). -/
  mem : Memory
  /-- `V[0..15]` (R20); VF is `V[15]` (R23). -/
  v : Vector Byte 16
  /-- `I` (R25). -/
  i : Word
  /-- `PC` (R26). -/
  pc : Word
  /-- `SP`, the number of occupied stack slots (R27). -/
  sp : Byte
  /-- `STACK[0..15]` (R28). -/
  stack : Vector Word 16
  /-- `DT`, the delay timer (R29). -/
  dt : Byte
  /-- `ST`, the sound timer (R30). -/
  st : Byte
  /-- `KEY[0..15]` (R31). -/
  keys : Vector Bool 16
  /-- `FB[0..2047]` (R32). -/
  fb : Framebuffer
  /-- `REDRAW` (R33). -/
  redraw : Bool
  /-- The `StepEvent` of the last step (R97): an output, which no rule reads (assumption 3). -/
  ev : StepEvent
  /-- The random bytes the host gives the coming steps, one a step (R11; assumption 2). -/
  randIn : List Byte
  /-- How many steps have begun: it picks the free random byte once `randIn` is empty (assumption 2). -/
  stepNo : Nat
  deriving DecidableEq, Repr

/-- Why the machine stops. -/
inductive Fault where
  /-- Raised by 00EE alone, in a state with `SP > 16`: the slot `STACK[SP-1]` does not exist (R28 gives 16 slots). R27 says
  such an `SP` is never reached, and the invariant rules it out. Safe: the model stops (assumption 5). -/
  | stackSlotAbsent
  deriving DecidableEq, Repr

/-- Why an instruction has no meaning. -/
inductive Refusal where
  /-- An instruction of the opcode table whose meaning is not modelled yet; raised by no arm of `exec`. Safe. -/
  | notModelled (mnemonic : String)
  deriving DecidableEq, Repr

/-- The state R250 leaves, for a given `FONT`: memory holds the font and zeros, which is what an unlisted address reads as.
The last two lines are the model's own fields (assumptions 2 and 3). -/
def State.resetWith (font : Font) : State where
  font := font
  mem := []
  v := Vector.replicate 16 0
  i := 0
  pc := Config.resetPc
  sp := 0
  stack := Vector.replicate 16 0
  dt := 0
  st := 0
  keys := Vector.replicate 16 false
  fb := Vector.replicate 32 0
  redraw := true
  ev := StepEvent.empty
  randIn := []
  stepNo := 0

/-- The state after Reset (R36, R250), with the default `FONT` of D9 (assumption 1). -/
def State.reset : State := State.resetWith defaultFont

end Sys2Proof.Machine
end

