-- ==== Sys2Proof/Machine/Memory.lean ====
section
/-! DEFINITION. The byte memory as data (20_memory.md): what an unlisted address reads as, reading and writing one byte of the
list of cells, and its canonical form. Addresses here are already reduced; R52 and R53 reduce them in Ops.lean. -/

namespace Sys2Proof.Machine

/-- The reset image (R36, R250): the `FONT` bytes in 0x000 to 0x04F, zero above. -/
def Memory.resetImage (font : Font) (a : Nat) : Byte := if h : a < 80 then font[a] else 0

/-- The byte at address `a`. -/
def Memory.read (font : Font) : Memory → Nat → Byte
  | [], a => Memory.resetImage font a
  | c :: m, a => if a = c.1 then c.2 else Memory.read font m a

/-- Memory without its cell at address `a`, which then reads as the reset image. -/
def Memory.erase (m : Memory) (a : Nat) : Memory := m.filter (fun c => !(c.1 == a))

/-- Memory with the cell (a, b) put in front of the first cell of a higher address. -/
def Memory.insert : Memory → Nat → Byte → Memory
  | [], a, b => [(a, b)]
  | c :: m, a, b => if a < c.1 then (a, b) :: c :: m else c :: Memory.insert m a b

/-- Memory with byte `b` at address `a`; a byte equal to the reset image takes no cell, so the form stays canonical. -/
def Memory.write (font : Font) (m : Memory) (a : Nat) (b : Byte) : Memory :=
  if b = Memory.resetImage font a then m.erase a else (m.erase a).insert a b

/-- The canonical form: addresses below 4096 (R50), strictly rising, and no cell equal to the reset image. -/
def Memory.wf (font : Font) : Memory → Bool
  | [] => true
  | c :: m =>
    decide (c.1 < Config.memSize) && !(c.2 == Memory.resetImage font c.1) && m.all (fun d => decide (c.1 < d.1)) &&
      Memory.wf font m

end Sys2Proof.Machine
end

