-- ==== Sys2Proof/Machine/Ops.lean ====
section
/-! DEFINITION. The named operations over the state: registers, memory (R52, R53), `PC` policies (R94), the stack (R27, R28),
the framebuffer (R32, R184), the events (R220, R222), the timer pass (R230), the fetch (R91) and the phases of a step (R90). -/

namespace Sys2Proof.Machine

/-! ### Registers -/

/-- `V[r]`: the register read of R7. No register is hard-wired (R20). -/
def readV (s : State) (r : Reg) : Byte := s.v[r]

/-- `V[r] <- b`. -/
def writeV (s : State) (r : Reg) (b : Byte) : State := { s with v := s.v.set r.val b r.isLt }

/-- `I <- w`. -/
def setI (s : State) (w : Word) : State := { s with i := w }

/-- `DT <- b`. -/
def setDt (s : State) (b : Byte) : State := { s with dt := b }

/-- `ST <- b`. -/
def setSt (s : State) (b : Byte) : State := { s with st := b }

/-! ### The program counter and its policies (R94) -/

/-- `PC <- w`; R94's policy "set". -/
def setPc (s : State) (w : Word) : State := { s with pc := w }

/-- `next`: `PC <- (PC + 2) mod 65536` (R7). -/
def pcNext (s : State) : State := setPc s (s.pc + 2)

/-- `skip`: `PC <- (PC + 4) mod 65536` (R7). -/
def pcSkip (s : State) : State := setPc s (s.pc + 4)

/-- `if cond: skip else: next`, the policy of the skip instructions (R94). -/
def skipIf (cond : Bool) (s : State) : State := if cond then pcSkip s else pcNext s

/-! ### Memory (R52, R53) -/

/-- `MemRead(addr, 1)`: `MEM[addr mod 4096]` (R52). -/
def memRead (s : State) (a : Nat) : Byte := Memory.read s.font s.mem (a % Config.memSize)

/-- `MemWrite(addr, 1, b)`: `MEM[addr mod 4096] <- b`, and nothing else changes (R53). -/
def memWrite (s : State) (a : Nat) (b : Byte) : State :=
  { s with mem := Memory.write s.font s.mem (a % Config.memSize) b }

/-- Byte after byte from address `a` on, in increasing address order. -/
def memWriteList (s : State) (a : Nat) : List Byte → State
  | [] => s
  | b :: bs => memWriteList (memWrite s a b) (a + 1) bs

/-- Registers `V[r]` for each `r` of the list, in its order, from the bytes at `a + r` (R166). -/
def loadRegs (s : State) (a : Nat) : List Reg → State
  | [] => s
  | r :: rs => loadRegs (writeV s r (memRead s (a + r.val))) a rs

/-! ### The stack (R27, R28) -/

/-- `STACK[j]`; none when there is no slot `j` (R28: 16 slots). -/
def readStack (s : State) (j : Nat) : Option Word := if h : j < 16 then some s.stack[j] else none

/-- `STACK[j] <- w`; only slots 0 to 15 exist, and R222 keeps a call from writing any other. -/
def writeStack (s : State) (j : Nat) (w : Word) : State :=
  if h : j < 16 then { s with stack := s.stack.set j w h } else s

/-- `SP <- b`. -/
def setSp (s : State) (b : Byte) : State := { s with sp := b }

/-! ### The display (R32, R33, R184) -/

/-- Cell (x, y) of a framebuffer, `FB[x + y*64]` (R32); off where there is no such cell. -/
def pixelAt (fb : Framebuffer) (x y : Nat) : Bool := if h : y < 32 then fb[y].getLsbD x else false

/-- `FB[k]`, cell `x + y*64` being the one in column `x` of row `y` (R32: "row-major, index = x + y*64"). -/
def cellAt (fb : Framebuffer) (k : Nat) : Bool := pixelAt fb (k % Config.fbWidth) (k / Config.fbWidth)

/-- `FB[x + y*64] <- FB[x + y*64] ^ 1`. -/
def flipPixel (fb : Framebuffer) (x y : Nat) : Framebuffer :=
  if h : y < 32 then fb.set y (fb[y] ^^^ (1#64 <<< x)) h else fb

/-- The framebuffer with every cell 0 (R181, R250). -/
def clearedFramebuffer : Framebuffer := Vector.replicate 32 0

/-- `FB` as a whole `<- fb`. -/
def setFb (s : State) (fb : Framebuffer) : State := { s with fb := fb }

/-- `REDRAW <- b` (R33). -/
def setRedraw (s : State) (b : Bool) : State := { s with redraw := b }

/-- What a sprite draw works on: the framebuffer and the pseudocode's `collision` (R182). -/
structure Blit where
  fb : Framebuffer
  collision : Bool
  deriving DecidableEq, Repr

/-- One set bit of a sprite row, its target cell (x, y): XOR it in and note a collision, or clip it (R182, R184). -/
def drawPixel (acc : Blit) (x y : Nat) : Blit :=
  if x < Config.fbWidth ∧ y < Config.fbHeight then
    { fb := flipPixel acc.fb x y, collision := acc.collision || pixelAt acc.fb x y }
  else acc

/-- One sprite row, the byte `b`, at column `vx` of row `y`: bit `7 - col` is column `col`, "bit 7 is the leftmost pixel" (R183). -/
def drawRow (b : Byte) (vx y : Nat) (acc : Blit) : Blit :=
  (List.range 8).foldl (fun acc col => if b.getLsbD (7 - col) then drawPixel acc (vx + col) y else acc) acc

/-- The sprite of `n` rows read from `a` on, at (vx, vy), top row first (R182, R183). -/
def drawSprite (s : State) (a vx vy n : Nat) : Blit :=
  (List.range n).foldl (fun acc row => drawRow (memRead s (a + row)) vx (vy + row) acc) { fb := s.fb, collision := false }

/-! ### Keys (R31, R200) -/

/-- The key state a key index selects; "for `VX` of 16 or more there is no such key and it reads as not pressed" (R200). -/
def keyPressed (s : State) (k : Nat) : Bool := if h : k < 16 then s.keys[k] else false

/-- The scan of R204: the highest pressed key index ("the last match wins"), or none. -/
def highestKey (s : State) : Option Nat :=
  (List.range Config.numKeys).foldl (fun found k => if keyPressed s k then some k else found) none

/-- `KEY[0..15] <- keys`, the host's alone (R31). -/
def setKeys (s : State) (keys : Vector Bool 16) : State := { s with keys := keys }

/-! ### The random input (R6, R11) -/

/-- `RAND()`: "the byte the random input supplies" to this step: the host's where it gave one, a free byte otherwise
(assumption 2). -/
def randByte (s : State) : Byte :=
  match s.randIn with
  | r :: _ => r
  | [] => Config.randomByte s.stepNo

/-- The host puts `rand` in front of the random bytes of the coming steps (R11). -/
def giveRand (rand : Byte) (s : State) : State := { s with randIn := rand :: s.randIn }

/-! ### Events (60_exceptions.md §1): the one way an anomaly is raised -/

/-- `raise` of R7: the two anomalies a dispatch can report. -/
inductive Anomaly where
  /-- No row of the opcode map recognizes the opcode (R220). -/
  | unknownOpcode (op : Word)
  /-- A call with a full stack or a return with an empty one (R222). -/
  | stackFault (op : Word)
  deriving DecidableEq, Repr

/-- The step's event record with the anomaly in it. -/
def Anomaly.record : Anomaly → StepEvent → StepEvent
  | .unknownOpcode op, e => { e with unknownOpcode := some op }
  | .stackFault op, e => { e with stackFault := some op }

/-- `ev <- e`. -/
def setEv (s : State) (e : StepEvent) : State := { s with ev := e }

/-- Raise an anomaly: the event records the opcode and nothing else changes. R226: "No event saves state, changes a mode,
masks anything, pushes onto the stack or transfers control to a handler or vector". -/
def raiseAnomaly (a : Anomaly) (s : State) : State := setEv s (a.record s.ev)

/-! ### The phases of a step (R90) -/

/-- The fetch: `op = (MemRead(PC, 1) << 8) | MemRead(PC + 1, 1)` (R91). -/
def fetch (s : State) : Word := wordOfBytes (memRead s s.pc.toNat) (memRead s (s.pc.toNat + 1))

/-- The step begins with an empty event record (R90). -/
def beginStep (s : State) : State := setEv s StepEvent.empty

/-- One timer of the timer pass: `if T > 0: T <- T - 1` (R230). -/
def tick (t : Byte) : Byte := if t = 0 then 0 else t - 1

/-- The timer pass (R230): both timers tick, and the tone is emitted when `ST` goes from 1 to 0 (R231). -/
def timerPass (s : State) : State :=
  setEv (setSt (setDt s (tick s.dt)) (tick s.st)) { s.ev with tone := s.ev.tone || s.st == 1 }

/-- `ev.redraw_pending <- REDRAW` (R90, R97). -/
def reportRedraw (s : State) : State := setEv s { s.ev with redrawPending := s.redraw }

/-- The step's random byte is used up, whether or not CXNN took it (R11; assumption 2). -/
def consumeRand (s : State) : State := { s with randIn := s.randIn.tail, stepNo := s.stepNo + 1 }

/-- What follows every dispatch: the timer pass and the assembly of the event (R90). -/
def endStep (s : State) : State := consumeRand (reportRedraw (timerPass s))

/-- The rest of the step after a dispatch that went through. -/
def finishStep : Host.Outcome State Fault Refusal → Host.Outcome State Fault Refusal
  | .next s => .next (endStep s)
  | .fault f => .fault f
  | .refused r => .refused r

/-- The state with the opcode `op` stored where the next step fetches: the high byte at `PC mod 4096`, the low byte at
`(PC + 1) mod 4096` (R55, R57). -/
def storeOpcode (s : State) (op : Word) : State :=
  memWrite (memWrite s s.pc.toNat (highByte op)) (s.pc.toNat + 1) (lowByte op)

end Sys2Proof.Machine
end

