-- ==== Sys2Proof/Machine/Operands.lean ====
section
/-! DEFINITION. Every operand form of the instruction set (30_encoding.md R71 to R73, 43_index_memory.md R160): what an operand
field stands for in a state. Immediates are unsigned and unscaled (R72): `nn` stands as it is. -/

namespace Sys2Proof.Machine

/-- `VX` or `VY` as a number: the pre-read operand value of R22 (the values are unsigned naturals, R7). -/
def valV (s : State) (r : Reg) : Nat := (readV s r).toNat

/-- The target of a jump or a call: `zext_16(NNN)` (R72, R112). -/
def jumpTarget (nnn : Addr12) : Word := zextAddr nnn

/-- The target of BNNN: `(zext_16(NNN) + V[0]) mod 65536` (R118). -/
def jumpTargetV0 (s : State) (nnn : Addr12) : Word := zextAddr nnn + zextByte (readV s V0)

/-- The address of byte `j` of a block at `I` (R160): it runs from 0x000 on past 0xFFF. -/
def indexAddr (s : State) (j : Nat) : Nat := (s.i.toNat + j) % Config.memSize

/-- The number of registers of the block `V0..VX` of FX55 and FX65 (R73). -/
def blockLength (x : Reg) : Nat := x.val + 1

/-- `I` after a block of `n` bytes: `(I + n) mod 65536` (R165, R166). -/
def indexAfter (s : State) (n : Nat) : Word := s.i + BitVec.ofNat 16 n

/-- The font glyph operand `VX * 5` of FX29, of the whole `VX` (R163). -/
def glyphAddr (s : State) (x : Reg) : Word := BitVec.ofNat 16 (valV s x * Config.fontGlyphBytes)

/-- The key operand of EX9E and EXA1: is the key with index `VX` pressed (R200)? -/
def keyOfV (s : State) (x : Reg) : Bool := keyPressed s (valV s x)

/-- The three decimal digits of `VX`, hundreds first (R164). -/
def bcdDigits (b : Byte) : List Byte :=
  [BitVec.ofNat 8 (b.toNat / 100), BitVec.ofNat 8 (b.toNat / 10 % 10), BitVec.ofNat 8 (b.toNat % 10)]

/-- The registers of the block `V0..VX`, in increasing order (R73). -/
def blockRegs (x : Reg) : List Reg := (List.finRange 16).take (blockLength x)

/-- The bytes `V[0]` to `V[X]`, in the order FX55 stores them (R165). -/
def blockOfV (s : State) (x : Reg) : List Byte := (blockRegs x).map (readV s)

end Sys2Proof.Machine
end

