-- ==== Sys2Proof/Machine/Flags.lean ====
section
/-! DEFINITION. Every flag computation (10_state.md R24) and the order in which an instruction writes its result and VF (R23). -/

namespace Sys2Proof.Machine

/-- A flag as the byte VF holds, 0 or 1 (R24). -/
def flagByte (b : Bool) : Byte := if b then 1 else 0

/-- The carry of 8XY4: `VX + VY > 255` (R138). -/
def carryFlag (vx vy : Byte) : Byte := flagByte (decide (vx.toNat + vy.toNat > 255))

/-- The NOT-borrow of `a - b` in 8XY5 and 8XY7: 0 when a borrow occurs, `b > a`, else 1 (R139, R141). -/
def notBorrowFlag (a b : Byte) : Byte := flagByte (decide (b.toNat ≤ a.toNat))

/-- The bit 8XY6 shifts out: bit 0 of `VX` before the shift (R140). -/
def lowBitFlag (vx : Byte) : Byte := vx &&& 1

/-- The bit 8XYE shifts out: bit 7 of `VX` before the shift (R142). -/
def highBitFlag (vx : Byte) : Byte := vx >>> 7

/-- The flag of FX1E: `I + VX > 0x0FFF`, on the exact sum (R162). -/
def indexOverflowFlag (i : Word) (vx : Byte) : Byte := flagByte (decide (i.toNat + vx.toNat > 0x0FFF))

/-- The collision flag of DXYN (R182). -/
def collisionFlag (acc : Blit) : Byte := flagByte acc.collision

/-- `V[15] <- flag`. -/
def writeFlag (s : State) (flag : Byte) : State := writeV s VF flag

/-- Write a result and then the flag: "an instruction that writes both `V[X]` and VF writes `V[X]` first and VF second" (R23). -/
def writeResultAndFlag (s : State) (x : Reg) (result flag : Byte) : State := writeFlag (writeV s x result) flag

end Sys2Proof.Machine
end

