-- ==== Sys2Proof/Machine/Alu.lean ====
section
/-! DEFINITION. The meanings of 42_alu.md. Byte arithmetic is unsigned and wraps mod 256 (R130); every instruction ends with `next`. -/

namespace Sys2Proof.Machine

/-- 6XNN LD (R132): `V[X] <- NN`. -/
def execLdVxNn (x : Reg) (nn : Byte) (s : State) : Host.Outcome State Fault Refusal :=
  .next (pcNext (writeV s x nn))

/-- 7XNN ADD (R133): `V[X] <- (VX + NN) mod 256`, with no flag. -/
def execAddVxNn (x : Reg) (nn : Byte) (s : State) : Host.Outcome State Fault Refusal :=
  .next (pcNext (writeV s x (readV s x + nn)))

/-- 8XY0 LD (R134): `V[X] <- VY`. -/
def execLdVxVy (x y : Reg) (s : State) : Host.Outcome State Fault Refusal :=
  .next (pcNext (writeV s x (readV s y)))

/-- 8XY1 OR (R135): `V[X] <- VX | VY`, with no flag. -/
def execOr (x y : Reg) (s : State) : Host.Outcome State Fault Refusal :=
  .next (pcNext (writeV s x (readV s x ||| readV s y)))

/-- 8XY2 AND (R136): `V[X] <- VX & VY`, with no flag. -/
def execAnd (x y : Reg) (s : State) : Host.Outcome State Fault Refusal :=
  .next (pcNext (writeV s x (readV s x &&& readV s y)))

/-- 8XY3 XOR (R137): `V[X] <- VX ^ VY`, with no flag. -/
def execXor (x y : Reg) (s : State) : Host.Outcome State Fault Refusal :=
  .next (pcNext (writeV s x (readV s x ^^^ readV s y)))

/-- 8XY4 ADD (R138): `V[X] <- sum mod 256`, then VF = carry. -/
def execAddVxVy (x y : Reg) (s : State) : Host.Outcome State Fault Refusal :=
  .next (pcNext (writeResultAndFlag s x (readV s x + readV s y) (carryFlag (readV s x) (readV s y))))

/-- 8XY5 SUB (R139): `V[X] <- (VX - VY) mod 256`, then VF = NOT borrow. -/
def execSub (x y : Reg) (s : State) : Host.Outcome State Fault Refusal :=
  .next (pcNext (writeResultAndFlag s x (readV s x - readV s y) (notBorrowFlag (readV s x) (readV s y))))

/-- 8XY6 SHR (R140): `V[X] <- VX >> 1`, then VF = the old bit 0; `Y` is ignored. -/
def execShr (x _y : Reg) (s : State) : Host.Outcome State Fault Refusal :=
  .next (pcNext (writeResultAndFlag s x (readV s x >>> 1) (lowBitFlag (readV s x))))

/-- 8XY7 SUBN (R141): `V[X] <- (VY - VX) mod 256`, then VF = NOT borrow. -/
def execSubn (x y : Reg) (s : State) : Host.Outcome State Fault Refusal :=
  .next (pcNext (writeResultAndFlag s x (readV s y - readV s x) (notBorrowFlag (readV s y) (readV s x))))

/-- 8XYE SHL (R142): `V[X] <- (VX << 1) mod 256`, then VF = the old bit 7; `Y` is ignored. -/
def execShl (x _y : Reg) (s : State) : Host.Outcome State Fault Refusal :=
  .next (pcNext (writeResultAndFlag s x (readV s x <<< 1) (highBitFlag (readV s x))))

/-- CXNN RND (R143): `V[X] <- RAND() & NN`. -/
def execRnd (x : Reg) (nn : Byte) (s : State) : Host.Outcome State Fault Refusal :=
  .next (pcNext (writeV s x (randByte s &&& nn)))

end Sys2Proof.Machine
end

