-- ==== Sys2Proof/Machine/ControlFlow.lean ====
section
/-! DEFINITION. The meanings of 41_control_flow.md: RET, JP, CALL, the register and byte skips, JP V0. -/

namespace Sys2Proof.Machine

/-- 00EE RET (R111): with `SP = 0` raise StackFault; else `SP <- SP - 1; PC <- (STACK[SP] + 2) mod 65536`. With `SP > 16`, which R27 says is
never reached, the slot does not exist and the machine stops (assumption 5). -/
def execRet (s : State) : Host.Outcome State Fault Refusal :=
  if s.sp = 0 then .next (raiseAnomaly (.stackFault (encode .ret)) s)
  else
    match readStack s (s.sp.toNat - 1) with
    | some w => .next (setPc (setSp s (s.sp - 1)) (w + 2))
    | none => .fault .stackSlotAbsent

/-- 1NNN JP (R112): `PC <- zext_16(NNN)`. -/
def execJp (nnn : Addr12) (s : State) : Host.Outcome State Fault Refusal :=
  .next (setPc s (jumpTarget nnn))

/-- 2NNN CALL (R113): with `SP >= 16` raise StackFault; else `STACK[SP] <- PC; SP <- SP + 1; PC <- zext_16(NNN)`. -/
def execCall (nnn : Addr12) (s : State) : Host.Outcome State Fault Refusal :=
  if Config.stackDepth ≤ s.sp.toNat then .next (raiseAnomaly (.stackFault (encode (.call nnn))) s)
  else .next (setPc (setSp (writeStack s s.sp.toNat s.pc) (s.sp + 1)) (jumpTarget nnn))

/-- 3XNN SE (R114): `if VX = NN: skip else: next`. -/
def execSeVxNn (x : Reg) (nn : Byte) (s : State) : Host.Outcome State Fault Refusal :=
  .next (skipIf (readV s x == nn) s)

/-- 4XNN SNE (R115): `if VX != NN: skip else: next`. -/
def execSneVxNn (x : Reg) (nn : Byte) (s : State) : Host.Outcome State Fault Refusal :=
  .next (skipIf (readV s x != nn) s)

/-- 5XY0 SE (R116): `if VX = VY: skip else: next`. -/
def execSeVxVy (x y : Reg) (s : State) : Host.Outcome State Fault Refusal :=
  .next (skipIf (readV s x == readV s y) s)

/-- 9XY0 SNE (R117): `if VX != VY: skip else: next`. -/
def execSneVxVy (x y : Reg) (s : State) : Host.Outcome State Fault Refusal :=
  .next (skipIf (readV s x != readV s y) s)

/-- BNNN JP V0 (R118): `PC <- (zext_16(NNN) + V[0]) mod 65536`. -/
def execJpV0 (nnn : Addr12) (s : State) : Host.Outcome State Fault Refusal :=
  .next (setPc s (jumpTargetV0 s nnn))

end Sys2Proof.Machine
end

