-- ==== Sys2Proof/Machine/Display.lean ====
section
/-! DEFINITION. The meanings of 44_display.md. Each sets `REDRAW` every time it executes (R180). -/

namespace Sys2Proof.Machine

/-- 00E0 CLS (R181): every cell 0, `REDRAW <- 1`. -/
def execCls (s : State) : Host.Outcome State Fault Refusal :=
  .next (pcNext (setRedraw (setFb s clearedFramebuffer) true))

/-- DXYN DRW (R182): XOR-draw the sprite at (`VX`, `VY`), then VF = collision, `REDRAW <- 1`. -/
def execDrw (x y : Reg) (n : RowCount) (s : State) : Host.Outcome State Fault Refusal :=
  let drawn := drawSprite s s.i.toNat (valV s x) (valV s y) n.val
  .next (pcNext (setRedraw (writeFlag (setFb s drawn.fb) (collisionFlag drawn)) true))

end Sys2Proof.Machine
end

