-- ==== Sys2Proof/Machine/IndexMemory.lean ====
section
/-! DEFINITION. The meanings of 43_index_memory.md. Every memory address is reduced mod 4096 by the access primitives and every value
stored into `I` mod 65536 (R160). -/

namespace Sys2Proof.Machine

/-- ANNN LD I (R161): `I <- zext_16(NNN)`. -/
def execLdINnn (nnn : Addr12) (s : State) : Host.Outcome State Fault Refusal :=
  .next (pcNext (setI s (zextAddr nnn)))

/-- FX1E ADD I (R162): `I <- (I + VX) mod 65536`, then VF = 1 if the exact sum passes 0x0FFF. -/
def execAddIVx (x : Reg) (s : State) : Host.Outcome State Fault Refusal :=
  .next (pcNext (writeFlag (setI s (s.i + zextByte (readV s x))) (indexOverflowFlag s.i (readV s x))))

/-- FX29 LD F (R163): `I <- VX * 5`. -/
def execLdFVx (x : Reg) (s : State) : Host.Outcome State Fault Refusal :=
  .next (pcNext (setI s (glyphAddr s x)))

/-- FX33 LD B (R164): the three decimal digits of `VX` at `I`, `I + 1`, `I + 2`; `I` unchanged. -/
def execLdBVx (x : Reg) (s : State) : Host.Outcome State Fault Refusal :=
  .next (pcNext (memWriteList s s.i.toNat (bcdDigits (readV s x))))

/-- FX55 LD [I] (R165): `V[0]` to `V[X]` into memory from `I` on, then `I <- (I + X + 1) mod 65536`. -/
def execLdMiVx (x : Reg) (s : State) : Host.Outcome State Fault Refusal :=
  .next (pcNext (setI (memWriteList s s.i.toNat (blockOfV s x)) (indexAfter s (blockLength x))))

/-- FX65 LD Vx, [I] (R166): `V[0]` to `V[X]` from memory at `I` on, then `I <- (I + X + 1) mod 65536`. -/
def execLdVxMi (x : Reg) (s : State) : Host.Outcome State Fault Refusal :=
  .next (pcNext (setI (loadRegs s s.i.toNat (blockRegs x)) (indexAfter s (blockLength x))))

end Sys2Proof.Machine
end

