-- ==== Sys2Proof/Machine/TimersKeys.lean ====
section
/-! DEFINITION. The meanings of 45_timers_keys.md. The timer pass (R230) runs after each of them, in the step. -/

namespace Sys2Proof.Machine

/-- EX9E SKP (R201): `if VX < 16 and KEY[VX] = 1: skip else: next`. -/
def execSkp (x : Reg) (s : State) : Host.Outcome State Fault Refusal :=
  .next (skipIf (keyOfV s x) s)

/-- EXA1 SKNP (R202): `if not (VX < 16 and KEY[VX] = 1): skip else: next`. -/
def execSknp (x : Reg) (s : State) : Host.Outcome State Fault Refusal :=
  .next (skipIf (!keyOfV s x) s)

/-- FX07 LD Vx, DT (R203): `V[X] <- DT`, the value before this step's timer pass. -/
def execLdVxDt (x : Reg) (s : State) : Host.Outcome State Fault Refusal :=
  .next (pcNext (writeV s x s.dt))

/-- FX0A LD Vx, K (R204): the highest pressed key index into `V[X]`, or, with no key pressed, `PC` unchanged. -/
def execLdVxK (x : Reg) (s : State) : Host.Outcome State Fault Refusal :=
  match highestKey s with
  | some k => .next (pcNext (writeV s x (BitVec.ofNat 8 k)))
  | none => .next s

/-- FX15 LD DT, Vx (R205): `DT <- VX`. -/
def execLdDtVx (x : Reg) (s : State) : Host.Outcome State Fault Refusal :=
  .next (pcNext (setDt s (readV s x)))

/-- FX18 LD ST, Vx (R206): `ST <- VX`. -/
def execLdStVx (x : Reg) (s : State) : Host.Outcome State Fault Refusal :=
  .next (pcNext (setSt s (readV s x)))

end Sys2Proof.Machine
end

