-- ==== Sys2Proof/Machine/Step.lean ====
section
/-! DEFINITION. One step (40_step_cycle.md R90): fetch, decode, dispatch or the unrecognized path, the timer pass and the event. -/

namespace Sys2Proof.Machine

/-- One Step (R90). A recognized opcode is dispatched (R95), an unrecognized one is raised (R96), and either way the timer
pass and the assembly of the event follow. -/
def step (s : State) : Host.Outcome State Fault Refusal :=
  match decodeWord (fetch s) with
  | some i => finishStep (exec i (beginStep s))
  | none => .next (endStep (raiseAnomaly (.unknownOpcode (fetch s)) (beginStep s)))

/-- The state with the instruction whose `nbits` table bits are `w` stored where the next step fetches, at `PC`. -/
def State.withFetchWord (s : State) (nbits w : Nat) : State := storeOpcode s (BitVec.ofNat 16 (w % 2 ^ nbits))

end Sys2Proof.Machine
end

