-- ==== Sys2Proof/Machine/Transact.lean ====
section
/-! DEFINITION. The host's operations (00_scope.md R9 to R14, 70_reset_and_hazards.md R250, R253): each is one atomic transaction
between steps. -/

namespace Sys2Proof.Machine

/-- `Reset()` (R10, R250): every element of the state to its reset value. The parameter `FONT` and the host's own inputs, which
are no state of the block, stay (assumptions 1 and 2). -/
def hostReset (s : State) : State := { State.resetWith s.font with randIn := s.randIn, stepNo := s.stepNo }

/-- What Load returns (R12). -/
inductive LoadResult where
  | ok
  /-- RomTooLarge (R221): the sequence is longer than 3584 bytes, and the Load changes no state. -/
  | romTooLarge
  deriving DecidableEq, Repr

/-- `Load(rom)` (R253): copy the bytes to 0x200 on, or refuse the whole. -/
def hostLoad (rom : List Byte) (s : State) : State × LoadResult :=
  if Config.romMax < rom.length then (s, .romTooLarge) else (memWriteList s Config.progBase rom, .ok)

/-- `SetKeys(k)` (R13): `KEY[i] <- k[i]` for each of the 16 keys. -/
def hostSetKeys (k : Word) (s : State) : State := setKeys s (Vector.ofFn fun i : Fin 16 => k.getLsbD i.val)

/-- "a write of a single key is the same operation with the other 15 bits unchanged" (R13). -/
def hostSetKey (i : Fin 16) (pressed : Bool) (s : State) : State := setKeys s (s.keys.set i.val pressed i.isLt)

/-- `AckRedraw()` (R14): it "clears the redraw flag". -/
def hostAckRedraw (s : State) : State := setRedraw s false

/-- `ReadFramebuffer()` (R14): "returns the 2048 framebuffer cells, row-major, cell `x + y*64`, with no side effect". -/
def hostReadFramebuffer (s : State) : List Bool := (List.range Config.fbCells).map (cellAt s.fb)

/-- `Step(rand)` (R11): one step whose random byte is `rand`. Its StepEvent is `ev` of the next state. -/
def hostStep (rand : Byte) (s : State) : Host.Outcome State Fault Refusal :=
  step (giveRand rand s)

/-- The operations of the host interface (R9). -/
inductive Request where
  | reset
  | load (rom : List Byte)
  | step (rand : Byte)
  | setKeys (k : Word)
  | setKey (i : Fin 16) (pressed : Bool)
  | ackRedraw
  | readFramebuffer
  deriving DecidableEq, Repr

/-- What an operation returns to the host (R10 to R14). -/
inductive Reply where
  | done
  | loaded (r : LoadResult)
  | event (e : StepEvent)
  | cells (fb : List Bool)
  deriving DecidableEq, Repr

/-- A step's outcome with the StepEvent it returns (R11). -/
def replyEvent : Host.Outcome State Fault Refusal → Host.Outcome (State × Reply) Fault Refusal
  | .next t => .next (t, .event t.ev)
  | .fault f => .fault f
  | .refused r => .refused r

/-- One host operation, "atomic: it completes before the next starts" (R9). -/
def transact : Request → State → Host.Outcome (State × Reply) Fault Refusal
  | .reset, s => .next (hostReset s, .done)
  | .load rom, s => .next ((hostLoad rom s).1, .loaded (hostLoad rom s).2)
  | .step rand, s => replyEvent (hostStep rand s)
  | .setKeys k, s => .next (hostSetKeys k s, .done)
  | .setKey i pressed, s => .next (hostSetKey i pressed s, .done)
  | .ackRedraw, s => .next (hostAckRedraw s, .done)
  | .readFramebuffer, s => .next (s, .cells (hostReadFramebuffer s))

end Sys2Proof.Machine
end

