-- ==== Sys2Proof/Safety.lean ====
section
/-! DEFINITION. What a safe state is, and what it means that an instruction leaves part of the state unchanged: the terms the
claims are stated in. -/

namespace Sys2Proof.Machine

/-- The invariant of the block: memory is in canonical form, and `SP` counts at most the 16 slots (R27: "Its legal values are 0
to 16"). -/
def SafeState (s : State) : Prop := Memory.wf s.font s.mem = true ∧ s.sp.toNat ≤ 16

/-- The parts of the state that a frame speaks of. -/
inductive Part where
  | font | v | mem | i | pc | sp | stack | dt | st | keys | fb | redraw | ev | inputs
  deriving DecidableEq, Repr

/-- Part `p` is the same in both states. Registers, memory and the framebuffer are compared through what a read gives. -/
def Same (s t : State) : Part → Prop
  | .font => t.font = s.font
  | .v => ∀ r, readV t r = readV s r
  | .mem => ∀ a, memRead t a = memRead s a
  | .i => t.i = s.i
  | .pc => t.pc = s.pc
  | .sp => t.sp = s.sp
  | .stack => t.stack = s.stack
  | .dt => t.dt = s.dt
  | .st => t.st = s.st
  | .keys => t.keys = s.keys
  | .fb => ∀ x y, pixelAt t.fb x y = pixelAt s.fb x y
  | .redraw => t.redraw = s.redraw
  | .ev => t.ev = s.ev
  | .inputs => t.randIn = s.randIn ∧ t.stepNo = s.stepNo

/-- The frame: every part of the state but those listed is unchanged. -/
def SameBut (changed : List Part) (s t : State) : Prop := ∀ p, p ∉ changed → Same s t p

/-- `step` repeated `n` times, from the host's interface. -/
def runSteps (n : Nat) (s : State) : Host.Outcome State Fault Refusal := Sys2Proof.core.run n s

end Sys2Proof.Machine
end

