-- ==== Sys2Proof/Certificates/Slice0/Obligations.lean ====
section
/-! DEFINITION. The statements for the provers, file by file of the spec. Results are stated in the spec's own arithmetic, exact
unsigned naturals with an explicit `mod` (00_scope.md R7); a frame names every part of the state that may change. -/

namespace Sys2Proof.Claims

open Sys2Proof Sys2Proof.Machine

/-- The opcodes with `op & mask = match` (R75) spell the instruction `f op`. -/
def DecodesAs (mask mtch : Word) (f : Word → Instr) : Prop :=
  ∀ op : Word, op &&& mask = mtch → decodeWord op = some (f op)

/-- `PC` moves on by `k`, mod 65536 (R94). -/
def PcMovesBy (k : Nat) (s t : State) : Prop := t.pc.toNat = (s.pc.toNat + k) % 65536

/-- The instruction writes the number `result` into `V[X]` and no other register, changes nothing else but `PC`, and ends with
`next`. -/
def WritesOnlyV (i : Instr) (s : State) (x : Reg) (result : Nat) : Prop :=
  ∃ t, exec i s = .next t ∧ (readV t x).toNat = result ∧ (∀ r, r ≠ x → readV t r = readV s r) ∧ PcMovesBy 2 s t ∧
    SameBut [.v, .pc] s t

/-- The instruction writes `result` into `V[X]`, then the flag into VF, so that VF ends holding the flag even where it is
`V[X]` (R23); it changes nothing else but `PC`, and ends with `next`. -/
def WritesVAndFlag (i : Instr) (s : State) (x : Reg) (result flag : Nat) : Prop :=
  ∃ t, exec i s = .next t ∧ (readV t VF).toNat = flag ∧ (x ≠ VF → (readV t x).toNat = result) ∧
    (∀ r, r ≠ x → r ≠ VF → readV t r = readV s r) ∧ PcMovesBy 2 s t ∧ SameBut [.v, .pc] s t

/-- The instruction skips the next one exactly when `cond` holds, and changes nothing but `PC`. -/
def SkipsWhen (i : Instr) (s : State) (cond : Prop) : Prop :=
  ∃ t, exec i s = .next t ∧ (cond → PcMovesBy 4 s t) ∧ (¬cond → PcMovesBy 2 s t) ∧ SameBut [.pc] s t

/-- The dispatch raises StackFault with the opcode `op` and changes nothing (R222). -/
def RaisesStackFault (i : Instr) (s : State) (op : Nat) : Prop :=
  ∃ t w, exec i s = .next t ∧ t.ev = { s.ev with stackFault := some w } ∧ w.toNat = op ∧ SameBut [.ev] s t

/-- A set bit of the sprite of `n` rows at `I`, drawn at (vx, vy), falls on column `px`, row `py` (R182, R183: bit 7 of a row
byte is its leftmost pixel). -/
def SpriteCovers (s : State) (vx vy n px py : Nat) : Prop :=
  ∃ row col, row < n ∧ col < 8 ∧ (memRead s (s.i.toNat + row)).getLsbD (7 - col) = true ∧ px = vx + col ∧ py = vy + row

/-- `u` is what the dispatch of the step from `s` leaves: the decoded instruction's state (R95), or the unrecognized path's (R96). -/
def DispatchLeaves (s u : State) : Prop :=
  (∃ i, decodeWord (fetch s) = some i ∧ exec i (beginStep s) = .next u) ∨
    (decodeWord (fetch s) = none ∧ u = raiseAnomaly (.unknownOpcode (fetch s)) (beginStep s))

/-- The step from `s` runs a call with a full stack or a return with an empty one (R222). -/
def StackFaults (s : State) : Prop :=
  (∃ nnn, decodeWord (fetch s) = some (.call nnn) ∧ 16 ≤ s.sp.toNat) ∨ (decodeWord (fetch s) = some .ret ∧ s.sp.toNat = 0)

/-- The four ways a run stops doing useful work (R257): a jump to itself, a waiting FX0A, an unrecognized opcode, a StackFault. -/
def Stalled (s : State) : Prop :=
  (∃ nnn : Addr12, decodeWord (fetch s) = some (.jp nnn) ∧ s.pc.toNat = nnn.toNat) ∨
    (∃ x, decodeWord (fetch s) = some (.ldVxK x) ∧ ∀ k : Fin 16, s.keys[k] = false) ∨
    decodeWord (fetch s) = none ∨ StackFaults s

/-- Every element has the reset value of R36, with the font bytes of `font`. -/
def HasResetValues (font : Font) (t : State) : Prop :=
  t.font = font ∧ (∀ a, (h : a < 80) → memRead t a = font[a]) ∧ (∀ a, 80 ≤ a → a < 4096 → memRead t a = 0) ∧
    (∀ r, readV t r = 0) ∧ t.i = 0 ∧ t.pc = 0x200 ∧ t.sp = 0 ∧ (∀ j : Fin 16, t.stack[j] = 0) ∧ t.dt = 0 ∧ t.st = 0 ∧
    (∀ k : Fin 16, t.keys[k] = false) ∧ (∀ c, c < 2048 → cellAt t.fb c = false) ∧ t.redraw = true

/-- The parts of the state that an instruction's dispatch may write (R94, and the writers that R25 to R33 and R37 list). -/
def mayWrite : Instr → List Part
  | .cls => [.pc, .fb, .redraw]
  | .ret => [.pc, .sp, .ev]
  | .jp _ => [.pc]
  | .call _ => [.pc, .sp, .stack, .ev]
  | .seVxNn _ _ => [.pc]
  | .sneVxNn _ _ => [.pc]
  | .seVxVy _ _ => [.pc]
  | .ldVxNn _ _ => [.pc, .v]
  | .addVxNn _ _ => [.pc, .v]
  | .ldVxVy _ _ => [.pc, .v]
  | .or _ _ => [.pc, .v]
  | .and _ _ => [.pc, .v]
  | .xor _ _ => [.pc, .v]
  | .addVxVy _ _ => [.pc, .v]
  | .sub _ _ => [.pc, .v]
  | .shr _ _ => [.pc, .v]
  | .subn _ _ => [.pc, .v]
  | .shl _ _ => [.pc, .v]
  | .sneVxVy _ _ => [.pc]
  | .ldINnn _ => [.pc, .i]
  | .jpV0 _ => [.pc]
  | .rnd _ _ => [.pc, .v]
  | .drw _ _ _ => [.pc, .v, .fb, .redraw]
  | .skp _ => [.pc]
  | .sknp _ => [.pc]
  | .ldVxDt _ => [.pc, .v]
  | .ldVxK _ => [.pc, .v]
  | .ldDtVx _ => [.pc, .dt]
  | .ldStVx _ => [.pc, .st]
  | .addIVx _ => [.pc, .v, .i]
  | .ldFVx _ => [.pc, .i]
  | .ldBVx _ => [.pc, .mem]
  | .ldMiVx _ => [.pc, .mem, .i]
  | .ldVxMi _ => [.pc, .v, .i]

/-- The general registers that an instruction writes (R21, and R24 for VF as a flag). -/
def destRegs : Instr → Reg → Prop
  | .ldVxNn x _, r => r = x
  | .addVxNn x _, r => r = x
  | .ldVxVy x _, r => r = x
  | .or x _, r => r = x
  | .and x _, r => r = x
  | .xor x _, r => r = x
  | .addVxVy x _, r => r = x ∨ r = VF
  | .sub x _, r => r = x ∨ r = VF
  | .shr x _, r => r = x ∨ r = VF
  | .subn x _, r => r = x ∨ r = VF
  | .shl x _, r => r = x ∨ r = VF
  | .rnd x _, r => r = x
  | .drw _ _ _, r => r = VF
  | .ldVxDt x, r => r = x
  | .ldVxK x, r => r = x
  | .addIVx _, r => r = VF
  | .ldVxMi x, r => r.val ≤ x.val
  | .cls, _ => False
  | .ret, _ => False
  | .jp _, _ => False
  | .call _, _ => False
  | .seVxNn _ _, _ => False
  | .sneVxNn _ _, _ => False
  | .seVxVy _ _, _ => False
  | .sneVxVy _ _, _ => False
  | .ldINnn _, _ => False
  | .jpV0 _, _ => False
  | .skp _, _ => False
  | .sknp _, _ => False
  | .ldDtVx _, _ => False
  | .ldStVx _, _ => False
  | .ldFVx _, _ => False
  | .ldBVx _, _ => False
  | .ldMiVx _, _ => False

end Sys2Proof.Claims

open Sys2Proof Sys2Proof.Machine Sys2Proof.Claims

/-! ### 00_scope.md and 70_reset_and_hazards.md: the host's operations -/

/-- R250 and R36: Reset leaves every element at its reset value, whatever the state before and whatever the font, and a second
Reset changes nothing. -/
def Obligations.ResetGivesResetValues : Prop :=
  ∀ s, HasResetValues s.font (hostReset s) ∧ hostReset (hostReset s) = hostReset s

/-- R253: Load copies the bytes to 0x200 on and touches nothing else, or refuses a sequence longer than 3584 bytes whole. -/
def Obligations.LoadCopiesOrRefusesWhole : Prop :=
  ∀ (rom : List Byte) (s : State),
    (3584 < rom.length → hostLoad rom s = (s, .romTooLarge)) ∧
      (rom.length ≤ 3584 →
        (hostLoad rom s).2 = .ok ∧ (∀ j, (h : j < rom.length) → memRead (hostLoad rom s).1 (0x200 + j) = rom[j]) ∧
          (∀ a, a < 4096 → (a < 0x200 ∨ 0x200 + rom.length ≤ a) → memRead (hostLoad rom s).1 a = memRead s a) ∧
          SameBut [.mem] s (hostLoad rom s).1)

/-- R13: SetKeys writes bit `i` to key `i`; a write of a single key leaves the other 15 unchanged. -/
def Obligations.SetKeysWritesKeyStates : Prop :=
  (∀ (k : Word) (s : State), (∀ i : Fin 16, (hostSetKeys k s).keys[i] = k.getLsbD i.val) ∧ SameBut [.keys] s (hostSetKeys k s)) ∧
    ∀ (i : Fin 16) (b : Bool) (s : State),
      (∀ j : Fin 16, (hostSetKey i b s).keys[j] = if j = i then b else s.keys[j]) ∧ SameBut [.keys] s (hostSetKey i b s)

/-- R14: ReadFramebuffer returns the 2048 cells, row-major, and changes nothing; AckRedraw clears the redraw flag alone. -/
def Obligations.FramebufferReadAndRedrawAck : Prop :=
  ∀ s, (∀ x y, x < 64 → y < 32 → (hostReadFramebuffer s)[x + y * 64]? = some (pixelAt s.fb x y)) ∧
    (hostReadFramebuffer s).length = 2048 ∧ transact .readFramebuffer s = .next (s, .cells (hostReadFramebuffer s)) ∧
    (hostAckRedraw s).redraw = false ∧ SameBut [.redraw] s (hostAckRedraw s)

/-- R11: the byte the host gives a Step is the one CXNN uses in it. That the inputs for the later steps stay as they were is the
model's choice (assumption 2). -/
def Obligations.StepUsesItsRandomByte : Prop :=
  ∀ (rand : Byte) (s : State) (x : Reg) (nn : Byte), decodeWord (fetch s) = some (.rnd x nn) →
    ∃ t, hostStep rand s = .next t ∧ readV t x = rand &&& nn ∧ (∀ r, r ≠ x → readV t r = readV s r) ∧
      t.randIn = s.randIn ∧ transact (.step rand) s = .next (t, .event t.ev)

/-- Every host operation is accepted in a state of the invariant and keeps the invariant. -/
def Obligations.HostOperationsKeepInvariant : Prop :=
  ∀ (q : Request) (s : State), SafeState s → ∃ t r, transact q s = .next (t, r) ∧ SafeState t

/-! ### 20_memory.md -/

/-- R52 and R53: an access selects its byte by the low 12 bits of the address, a write changes that byte and nothing else, and
a read returns what was last written. -/
def Obligations.MemoryReadsBackWrites : Prop :=
  ∀ (s : State) (a b : Nat) (v : Byte),
    memRead s a = memRead s (a % 4096) ∧
      memRead (memWrite s a v) b = (if b % 4096 = a % 4096 then v else memRead s b) ∧ SameBut [.mem] s (memWrite s a v)

/-- A stored byte is the byte the next fetch sees, at either half of the opcode; so an opcode stored at `PC` is fetched. The spec
marks this as its own inference ("Instruction fetch is coherent with data writes", R61). -/
def Obligations.FetchSeesStoredBytes : Prop :=
  (∀ (s : State) (a : Nat) (v : Byte),
    highByte (fetch (memWrite s a v)) = (if s.pc.toNat % 4096 = a % 4096 then v else highByte (fetch s)) ∧
      lowByte (fetch (memWrite s a v)) = (if (s.pc.toNat + 1) % 4096 = a % 4096 then v else lowByte (fetch s))) ∧
    ∀ (s : State) (op : Word), fetch (s.withFetchWord 16 op.toNat) = op ∧ SameBut [.mem] s (s.withFetchWord 16 op.toNat)

/-! ### 30_encoding.md -/

/-- R71: the fields of an opcode, as the source's masks and shifts give them. -/
def Obligations.OpcodeFieldsAreTheMasks : Prop :=
  ∀ op : Word,
    (fieldF op).toNat * 0x1000 = (op &&& 0xF000).toNat ∧ (fieldX op).val = ((op >>> 8) &&& 0xF).toNat ∧
      (fieldY op).val = ((op >>> 4) &&& 0xF).toNat ∧ (fieldN op).toNat = (op &&& 0x000F).toNat ∧
      (fieldRows op).val = (op &&& 0x000F).toNat ∧ (fieldNN op).toNat = (op &&& 0x00FF).toNat ∧
      (fieldNNN op).toNat = (op &&& 0x0FFF).toNat

/-- Decoding an encoded instruction gives it back, as a word and at the head of any sequence of bytes. -/
def Obligations.DecodeOfEncode : Prop :=
  ∀ (i : Instr) (rest : List Byte), decodeWord (encode i) = some i ∧ decode (encodeBytes i ++ rest) = .ok (i, rest)

/-- Only the word that an instruction encodes to decodes to it. For 8XY6 and 8XYE this is the model's choice (assumption 12): R77 says
that every value of their unused `Y` decodes to the same instruction, and the model keeps `Y` in it. -/
def Obligations.EncodeOfDecode : Prop :=
  ∀ (op : Word) (i : Instr), decodeWord op = some i → encode i = op

/-- R75: an opcode is recognized exactly when a row of the opcode map matches it, and the instruction it spells is that row; any other
opcode is dispatched as unrecognized. -/
def Obligations.DecodeFollowsOpcodeMap : Prop :=
  ∀ op : Word,
    (∀ k : Fin 34, op &&& opcodeTable[k].mask = opcodeTable[k].mtch → ∃ i, decodeWord op = some i ∧ i.rowIndex = k) ∧
      ((∀ k : Fin 34, op &&& opcodeTable[k].mask ≠ opcodeTable[k].mtch) →
        decodeWord op = none ∧
          ∀ s, fetch s = op → step s = .next (endStep (raiseAnomaly (.unknownOpcode op) (beginStep s))))

/-- No opcode matches two rows: the spec's own inference ("no 16-bit value matches two rows", R76). -/
def Obligations.OpcodeRowsDoNotOverlap : Prop :=
  ∀ (op : Word) (j k : Fin 34), op &&& opcodeTable[j].mask = opcodeTable[j].mtch →
    op &&& opcodeTable[k].mask = opcodeTable[k].mtch → j = k

/-- The unrecognized opcodes, listed by their first nibble: the spec's own inference ("The unrecognized encodings are exactly
these", R78). -/
def Obligations.UnrecognizedOpcodesAreListed : Prop :=
  ∀ op : Word, decodeWord op = none ↔
    (op.toNat ≤ 0x0FFF ∧ op.toNat ≠ 0x00E0 ∧ op.toNat ≠ 0x00EE) ∨
      (op.toNat / 0x1000 = 5 ∧ op.toNat % 16 ≠ 0) ∨
      (op.toNat / 0x1000 = 8 ∧ op.toNat % 16 ∈ [8, 9, 0xA, 0xB, 0xC, 0xD, 0xF]) ∨
      (op.toNat / 0x1000 = 9 ∧ op.toNat % 16 ≠ 0) ∨
      (op.toNat / 0x1000 = 0xE ∧ op.toNat % 256 ∉ [0x9E, 0xA1]) ∨
      (op.toNat / 0x1000 = 0xF ∧ op.toNat % 256 ∉ [0x07, 0x0A, 0x15, 0x18, 0x1E, 0x29, 0x33, 0x55, 0x65])

/-- Words written out from the encodings of R80 decode to the instructions they stand for, one of each family. -/
def Obligations.SampleWordsDecode : Prop :=
  decodeWord 0b0000000011100000 = some .cls ∧ decodeWord 0b0010001100000001 = some (.call 0x301) ∧
    decodeWord 0b0101000100100000 = some (.seVxVy 1 2) ∧ decodeWord 0b1000111100010101 = some (.sub 0xF 1) ∧
    decodeWord 0b1101000011110101 = some (.drw 0 0xF 5) ∧ decodeWord 0b1110101010100001 = some (.sknp 0xA) ∧
    decodeWord 0b1111001101100101 = some (.ldVxMi 3) ∧ decodeWord 0b1000000100101000 = none

/-! ### 40_step_cycle.md: the step -/

/-- R91: the fetch reads two bytes at `PC`, the byte at the lower address high, each address mod 4096. -/
def Obligations.FetchIsBigEndian : Prop :=
  ∀ s : State,
    (fetch s).toNat = (memRead s (s.pc.toNat % 4096)).toNat * 256 + (memRead s ((s.pc.toNat + 1) % 4096)).toNat

/-- R90: when the bytes at `PC` decode to `i`, the step is `exec i` on the state with an empty event, and then the timer pass and
the assembly of the event. That it also uses up the step's random byte is the model's choice (assumption 2). -/
def Obligations.StepRunsDecodedInstruction : Prop :=
  (∀ s i, decodeWord (fetch s) = some i →
    (∀ u, exec i (beginStep s) = .next u → step s = .next (endStep u)) ∧
      (∀ f, exec i (beginStep s) = .fault f → step s = .fault f) ∧
      (∀ r, exec i (beginStep s) = .refused r → step s = .refused r)) ∧
    (∀ s, (beginStep s).ev = StepEvent.empty ∧ SameBut [.ev] s (beginStep s)) ∧
    ∀ u, SameBut [.dt, .st, .ev, .inputs] u (endStep u) ∧ (endStep u).randIn = u.randIn.tail ∧
      (endStep u).stepNo = u.stepNo + 1 ∧ (endStep u).ev.redrawPending = u.redraw

/-- R96: an unrecognized opcode changes no state in the dispatch; the step reports the opcode and the timers tick. That the next step
fetches the same opcode again is the spec's own inference, from R96 and R91 ("the next step fetches the same opcode again"). -/
def Obligations.UnknownOpcodeIsReported : Prop :=
  ∀ s, decodeWord (fetch s) = none →
    ∃ t, step s = .next t ∧ t.ev.unknownOpcode = some (fetch s) ∧ t.ev.stackFault = none ∧
      t.dt.toNat = s.dt.toNat - 1 ∧ t.st.toNat = s.st.toNat - 1 ∧ SameBut [.dt, .st, .ev, .inputs] s t ∧ fetch t = fetch s

/-- R97: what the StepEvent of a step holds. -/
def Obligations.StepEventContents : Prop :=
  ∀ s t, step s = .next t →
    t.ev.redrawPending = t.redraw ∧ (∀ u, DispatchLeaves s u → (t.ev.tone = true ↔ u.st.toNat = 1)) ∧
      (decodeWord (fetch s) = none → t.ev.unknownOpcode = some (fetch s)) ∧
      (decodeWord (fetch s) ≠ none → t.ev.unknownOpcode = none) ∧ (StackFaults s → t.ev.stackFault = some (fetch s)) ∧
      (¬StackFaults s → t.ev.stackFault = none) ∧ ¬(t.ev.unknownOpcode ≠ none ∧ t.ev.stackFault ≠ none)

/-- R230 and R231: after every dispatch, whatever it did, each timer above 0 goes down by 1 and the tone is emitted exactly when
`ST` goes from 1 to 0. -/
def Obligations.TimerPassEndsEveryStep : Prop :=
  ∀ s t, step s = .next t →
    ∃ u, DispatchLeaves s u ∧ t.dt.toNat = u.dt.toNat - 1 ∧ t.st.toNat = u.st.toNat - 1 ∧
      (t.ev.tone = true ↔ u.st.toNat = 1)

/-- The machine takes a step from every state with a legal `SP`: no fault, no refusal. -/
def Obligations.EveryStepCompletes : Prop :=
  ∀ s : State, s.sp.toNat ≤ 16 → ∃ t, step s = .next t

/-- Every step keeps the invariant: memory stays in canonical form and `SP` within 0 to 16. -/
def Obligations.EveryStepKeepsInvariant : Prop :=
  ∀ s t, SafeState s → step s = .next t → SafeState t

/-- `State.reset` is a state after Reset, with the default font bytes of D9 (the model's choice, assumption 1), and the invariant
holds in it. -/
def Obligations.ResetMeetsInvariant : Prop := SafeState State.reset ∧ HasResetValues defaultFont State.reset

/-- The block never stops by itself: from any state of the invariant any number of steps completes. -/
def Obligations.RunsNeverStop : Prop :=
  ∀ (n : Nat) (s : State), SafeState s → ∃ t, runSteps n s = .next t ∧ SafeState t

/-- R257: in each of the four ways a run stops doing useful work, every later step is accepted, changes nothing but the timers,
the event and the inputs, and the timers count down to 0. The spec marks the list as its own inference ("in one of four ways, each a state in which Step
keeps being accepted"). -/
def Obligations.StalledRunOnlyCountsDown : Prop :=
  ∀ (n : Nat) (s : State), Stalled s →
    ∃ t, runSteps n s = .next t ∧ SameBut [.dt, .st, .ev, .inputs] s t ∧ t.dt.toNat = s.dt.toNat - n ∧
      t.st.toNat = s.st.toNat - n ∧ Stalled t

/-- R37, whole-machine frame: the dispatch of an instruction writes no part of the state but those it may. -/
def Obligations.DispatchWritesOnlyItsParts : Prop :=
  ∀ i s t, exec i s = .next t → SameBut (mayWrite i) s t

/-- A general register that an instruction changes is one that it writes: the spec's own inference from its rules ("Instructions that
write a general register", R21, and R24 for VF). -/
def Obligations.OnlyDestinationRegistersChange : Prop :=
  ∀ i s t r, exec i s = .next t → readV t r ≠ readV s r → destRegs i r

/-- R31 and R33: no step changes a key state, and only the host clears the redraw flag. -/
def Obligations.StepsLeaveKeysAndKeepRedraw : Prop :=
  ∀ s t, step s = .next t → t.keys = s.keys ∧ t.font = s.font ∧ (s.redraw = true → t.redraw = true)

/-! ### 41_control_flow.md -/

/-- R112 and R118: the jumps set `PC` to their target and change nothing else. -/
def Obligations.JumpsSetPc : Prop :=
  DecodesAs 0xF000 0x1000 (fun op => .jp (fieldNNN op)) ∧ DecodesAs 0xF000 0xB000 (fun op => .jpV0 (fieldNNN op)) ∧
    ∀ (s : State) (nnn : Addr12),
      (∃ t, exec (.jp nnn) s = .next t ∧ t.pc.toNat = nnn.toNat ∧ SameBut [.pc] s t) ∧
        ∃ t, exec (.jpV0 nnn) s = .next t ∧ t.pc.toNat = (nnn.toNat + valV s V0) % 65536 ∧ SameBut [.pc] s t

/-- R113: CALL pushes its own address and jumps; with a full stack it raises StackFault and nothing else changes (the spec's
decision D5). -/
def Obligations.CallPushesItsAddress : Prop :=
  DecodesAs 0xF000 0x2000 (fun op => .call (fieldNNN op)) ∧
    ∀ (s : State) (nnn : Addr12),
      (s.sp.toNat < 16 →
        ∃ t, exec (.call nnn) s = .next t ∧ t.sp.toNat = s.sp.toNat + 1 ∧ t.pc.toNat = nnn.toNat ∧
          (∀ j : Fin 16, t.stack[j] = if j.val = s.sp.toNat then s.pc else s.stack[j]) ∧ SameBut [.sp, .stack, .pc] s t) ∧
        (16 ≤ s.sp.toNat → RaisesStackFault (.call nnn) s (0x2000 + nnn.toNat))

/-- R111: RET goes to the saved address plus 2 and frees the slot without clearing it; with an empty stack it raises StackFault
and nothing else changes. -/
def Obligations.RetReturnsPastTheCall : Prop :=
  DecodesAs 0xFFFF 0x00EE (fun _ => .ret) ∧
    (∀ (s : State) (j : Fin 16), s.sp.toNat = j.val + 1 →
      ∃ t, exec .ret s = .next t ∧ t.sp.toNat = j.val ∧ t.pc.toNat = (s.stack[j].toNat + 2) % 65536 ∧
        SameBut [.sp, .pc] s t) ∧
    ∀ s : State, s.sp.toNat = 0 → RaisesStackFault .ret s 0x00EE

/-- The model's choice (assumption 5): where `SP` has a value that R27 says is never reached, RET stops by name, and no other
instruction stops in any state. -/
def Obligations.OnlyRetBeyondTheStackFaults : Prop :=
  (∀ s : State, 16 < s.sp.toNat → exec .ret s = .fault .stackSlotAbsent) ∧
    ∀ (i : Instr) (s : State), (i ≠ .ret ∨ s.sp.toNat ≤ 16) → ∃ t, exec i s = .next t

/-- R222 (the spec's decision D5): a StackFault writes nothing in the dispatch, the step reports the opcode, the timer pass runs, and
the next step finds the same fault. -/
def Obligations.StackFaultStepIsReported : Prop :=
  ∀ s : State, StackFaults s →
    ∃ t, step s = .next t ∧ t.ev.stackFault = some (fetch s) ∧ t.ev.unknownOpcode = none ∧ t.dt.toNat = s.dt.toNat - 1 ∧
      t.st.toNat = s.st.toNat - 1 ∧ SameBut [.dt, .st, .ev, .inputs] s t ∧ StackFaults t

/-- A call and then a return goes on after the call, with `SP` as before. -/
def Obligations.CallThenRetComesBack : Prop :=
  ∀ (s : State) (nnn : Addr12), s.sp.toNat < 16 →
    ∃ t u, exec (.call nnn) s = .next t ∧ exec .ret t = .next u ∧ PcMovesBy 2 s u ∧ SameBut [.pc, .stack] s u

/-- R114 and R115: the skips that compare a register with a byte. -/
def Obligations.ByteSkips : Prop :=
  DecodesAs 0xF000 0x3000 (fun op => .seVxNn (fieldX op) (fieldNN op)) ∧
    DecodesAs 0xF000 0x4000 (fun op => .sneVxNn (fieldX op) (fieldNN op)) ∧
    ∀ (s : State) (x : Reg) (nn : Byte),
      SkipsWhen (.seVxNn x nn) s (valV s x = nn.toNat) ∧ SkipsWhen (.sneVxNn x nn) s (valV s x ≠ nn.toNat)

/-- R116 and R117: the skips that compare two registers. -/
def Obligations.RegisterSkips : Prop :=
  DecodesAs 0xF00F 0x5000 (fun op => .seVxVy (fieldX op) (fieldY op)) ∧
    DecodesAs 0xF00F 0x9000 (fun op => .sneVxVy (fieldX op) (fieldY op)) ∧
    ∀ (s : State) (x y : Reg),
      SkipsWhen (.seVxVy x y) s (valV s x = valV s y) ∧ SkipsWhen (.sneVxVy x y) s (valV s x ≠ valV s y)

/-! ### 42_alu.md -/

/-- R132 and R134: the loads of a byte and of a register. -/
def Obligations.RegisterLoads : Prop :=
  DecodesAs 0xF000 0x6000 (fun op => .ldVxNn (fieldX op) (fieldNN op)) ∧
    DecodesAs 0xF00F 0x8000 (fun op => .ldVxVy (fieldX op) (fieldY op)) ∧
    ∀ (s : State) (x y : Reg) (nn : Byte),
      WritesOnlyV (.ldVxNn x nn) s x nn.toNat ∧ WritesOnlyV (.ldVxVy x y) s x (valV s y)

/-- R133: 7XNN adds mod 256 with no flag. -/
def Obligations.AddByteWrapsWithoutFlag : Prop :=
  DecodesAs 0xF000 0x7000 (fun op => .addVxNn (fieldX op) (fieldNN op)) ∧
    ∀ (s : State) (x : Reg) (nn : Byte), WritesOnlyV (.addVxNn x nn) s x ((valV s x + nn.toNat) % 256)

/-- R135, R136 and R137: the bitwise instructions, with no flag. -/
def Obligations.BitwiseInstructions : Prop :=
  DecodesAs 0xF00F 0x8001 (fun op => .or (fieldX op) (fieldY op)) ∧
    DecodesAs 0xF00F 0x8002 (fun op => .and (fieldX op) (fieldY op)) ∧
    DecodesAs 0xF00F 0x8003 (fun op => .xor (fieldX op) (fieldY op)) ∧
    ∀ (s : State) (x y : Reg),
      WritesOnlyV (.or x y) s x (valV s x ||| valV s y) ∧ WritesOnlyV (.and x y) s x (valV s x &&& valV s y) ∧
        WritesOnlyV (.xor x y) s x (valV s x ^^^ valV s y)

/-- R138: 8XY4 adds mod 256, and VF is 1 exactly when the sum is above 255. -/
def Obligations.AddRegistersCarries : Prop :=
  DecodesAs 0xF00F 0x8004 (fun op => .addVxVy (fieldX op) (fieldY op)) ∧
    ∀ (s : State) (x y : Reg),
      WritesVAndFlag (.addVxVy x y) s x ((valV s x + valV s y) % 256) (if valV s x + valV s y > 255 then 1 else 0)

/-- R139 and R141: the subtractions mod 256, and VF is 0 exactly when a borrow occurs. -/
def Obligations.SubtractionsBorrow : Prop :=
  DecodesAs 0xF00F 0x8005 (fun op => .sub (fieldX op) (fieldY op)) ∧
    DecodesAs 0xF00F 0x8007 (fun op => .subn (fieldX op) (fieldY op)) ∧
    ∀ (s : State) (x y : Reg),
      WritesVAndFlag (.sub x y) s x ((valV s x + 256 - valV s y) % 256) (if valV s y > valV s x then 0 else 1) ∧
        WritesVAndFlag (.subn x y) s x ((valV s y + 256 - valV s x) % 256) (if valV s x > valV s y then 0 else 1)

/-- R140 and R142: the shifts by one bit, with the bit shifted out in VF, whatever `Y` is. -/
def Obligations.ShiftsMoveOneBit : Prop :=
  DecodesAs 0xF00F 0x8006 (fun op => .shr (fieldX op) (fieldY op)) ∧
    DecodesAs 0xF00F 0x800E (fun op => .shl (fieldX op) (fieldY op)) ∧
    ∀ (s : State) (x y : Reg),
      WritesVAndFlag (.shr x y) s x (valV s x / 2) (valV s x % 2) ∧
        WritesVAndFlag (.shl x y) s x (valV s x * 2 % 256) (valV s x / 128)

/-- R143: CXNN loads the step's random byte masked by NN. That this byte is the head of `randIn` where the host gave one, and any byte
at all otherwise, is the model's choice (assumption 2). -/
def Obligations.RandomByteIsMasked : Prop :=
  DecodesAs 0xF000 0xC000 (fun op => .rnd (fieldX op) (fieldNN op)) ∧
    (∀ (s : State) (x : Reg) (nn : Byte), WritesOnlyV (.rnd x nn) s x (randByte s &&& nn).toNat) ∧
    ∀ (s : State) (b : Byte) (bs : List Byte), s.randIn = b :: bs → randByte s = b

/-! ### 43_index_memory.md -/

/-- R161 and R163: the loads of `I`, from an address and from a font digit. -/
def Obligations.IndexLoads : Prop :=
  DecodesAs 0xF000 0xA000 (fun op => .ldINnn (fieldNNN op)) ∧ DecodesAs 0xF0FF 0xF029 (fun op => .ldFVx (fieldX op)) ∧
    ∀ (s : State) (nnn : Addr12) (x : Reg),
      (∃ t, exec (.ldINnn nnn) s = .next t ∧ t.i.toNat = nnn.toNat ∧ PcMovesBy 2 s t ∧ SameBut [.i, .pc] s t) ∧
        ∃ t, exec (.ldFVx x) s = .next t ∧ t.i.toNat = valV s x * 5 ∧ PcMovesBy 2 s t ∧ SameBut [.i, .pc] s t

/-- R162: FX1E adds to `I` mod 65536, and VF is 1 exactly when the exact sum is above 0x0FFF. -/
def Obligations.AddToIndexFlagsOverflow : Prop :=
  DecodesAs 0xF0FF 0xF01E (fun op => .addIVx (fieldX op)) ∧
    ∀ (s : State) (x : Reg),
      ∃ t, exec (.addIVx x) s = .next t ∧ t.i.toNat = (s.i.toNat + valV s x) % 65536 ∧
        (readV t VF).toNat = (if s.i.toNat + valV s x > 0x0FFF then 1 else 0) ∧
        (∀ r, r ≠ VF → readV t r = readV s r) ∧ PcMovesBy 2 s t ∧ SameBut [.i, .v, .pc] s t

/-- R164: FX33 stores the three decimal digits at `I`, `I + 1` and `I + 2`, and no other byte. -/
def Obligations.DecimalDigitsAreStored : Prop :=
  DecodesAs 0xF0FF 0xF033 (fun op => .ldBVx (fieldX op)) ∧
    ∀ (s : State) (x : Reg),
      ∃ t, exec (.ldBVx x) s = .next t ∧ (memRead t (indexAddr s 0)).toNat = valV s x / 100 ∧
        (memRead t (indexAddr s 1)).toNat = valV s x / 10 % 10 ∧ (memRead t (indexAddr s 2)).toNat = valV s x % 10 ∧
        (∀ a, (∀ j, j < 3 → a % 4096 ≠ indexAddr s j) → memRead t a = memRead s a) ∧
        (∀ j, indexAddr s j = (s.i.toNat + j) % 4096) ∧ PcMovesBy 2 s t ∧ SameBut [.mem, .pc] s t

/-- R165: FX55 stores `V[0]` to `V[X]` from `I` on, and no other byte, and advances `I`. -/
def Obligations.RegisterBlockIsStored : Prop :=
  DecodesAs 0xF0FF 0xF055 (fun op => .ldMiVx (fieldX op)) ∧
    ∀ (s : State) (x : Reg),
      ∃ t, exec (.ldMiVx x) s = .next t ∧ (∀ r : Reg, r.val ≤ x.val → memRead t (indexAddr s r.val) = readV s r) ∧
        (∀ a, (∀ j, j ≤ x.val → a % 4096 ≠ indexAddr s j) → memRead t a = memRead s a) ∧
        (∀ j, indexAddr s j = (s.i.toNat + j) % 4096) ∧ t.i.toNat = (s.i.toNat + x.val + 1) % 65536 ∧ PcMovesBy 2 s t ∧
        SameBut [.mem, .i, .pc] s t

/-- R166: FX65 loads `V[0]` to `V[X]` from `I` on, and no other register, and advances `I`. -/
def Obligations.RegisterBlockIsLoaded : Prop :=
  DecodesAs 0xF0FF 0xF065 (fun op => .ldVxMi (fieldX op)) ∧
    ∀ (s : State) (x : Reg),
      ∃ t, exec (.ldVxMi x) s = .next t ∧
        (∀ r : Reg, r.val ≤ x.val → readV t r = memRead s ((s.i.toNat + r.val) % 4096)) ∧
        (∀ r : Reg, x.val < r.val → readV t r = readV s r) ∧ t.i.toNat = (s.i.toNat + x.val + 1) % 65536 ∧
        PcMovesBy 2 s t ∧ SameBut [.v, .i, .pc] s t

/-! ### 44_display.md -/

/-- R181: CLS clears every cell and sets `REDRAW`; nothing else changes. -/
def Obligations.ClearScreen : Prop :=
  DecodesAs 0xFFFF 0x00E0 (fun _ => .cls) ∧
    ∀ s : State, ∃ t, exec .cls s = .next t ∧ (∀ c, c < 2048 → cellAt t.fb c = false) ∧ t.redraw = true ∧ PcMovesBy 2 s t ∧
      SameBut [.fb, .redraw, .pc] s t

/-- R182, R183 and R184: DRW flips exactly the cells of the framebuffer that a set sprite bit falls on, VF is 1 exactly when one of
them was on, and cells outside the framebuffer are left out. -/
def Obligations.DrawXorsTheSprite : Prop :=
  DecodesAs 0xF000 0xD000 (fun op => .drw (fieldX op) (fieldY op) (fieldRows op)) ∧
    ∀ (s : State) (x y : Reg) (n : RowCount),
      ∃ t, exec (.drw x y n) s = .next t ∧
        (∀ px py, px < 64 → py < 32 →
          (cellAt t.fb (px + py * 64) ≠ cellAt s.fb (px + py * 64) ↔ SpriteCovers s (valV s x) (valV s y) n.val px py)) ∧
        ((readV t VF).toNat = 1 ↔
          ∃ px py, px < 64 ∧ py < 32 ∧ SpriteCovers s (valV s x) (valV s y) n.val px py ∧
            cellAt s.fb (px + py * 64) = true) ∧
        (readV t VF).toNat ≤ 1 ∧ (∀ r, r ≠ VF → readV t r = readV s r) ∧ t.redraw = true ∧ PcMovesBy 2 s t ∧
        SameBut [.fb, .v, .redraw, .pc] s t

/-- Drawing the same sprite twice at the same place restores the framebuffer, and the second draw gives VF = 1 exactly when the
first set a cell. Where a coordinate register is VF, the first draw overwrites it: `SecondDrawTakesNewCoordinates`. -/
def Obligations.DrawTwiceRestores : Prop :=
  ∀ (s t u : State) (x y : Reg) (n : RowCount), x ≠ VF → y ≠ VF → exec (.drw x y n) s = .next t →
    exec (.drw x y n) t = .next u →
    Same s u .fb ∧
      ((readV u VF).toNat = 1 ↔ ∃ px py, pixelAt s.fb px py = false ∧ pixelAt t.fb px py = true)

/-- The second of two equal draws, for every pair of coordinate registers, VF among them: it flips the cells that the same sprite
covers at the coordinates the first draw left, VF being then 1 exactly when the first draw cleared a cell; where the coordinates
are still the same, the framebuffer is restored. -/
def Obligations.SecondDrawTakesNewCoordinates : Prop :=
  ∀ (s : State) (x y : Reg) (n : RowCount),
    ∃ t u, exec (.drw x y n) s = .next t ∧ exec (.drw x y n) t = .next u ∧
      ((readV t VF).toNat = 1 ↔ ∃ px py, pixelAt s.fb px py = true ∧ pixelAt t.fb px py = false) ∧
      (readV t VF).toNat ≤ 1 ∧ (∀ r, r ≠ VF → readV t r = readV s r) ∧
      (∀ px py, px < 64 → py < 32 →
        (cellAt u.fb (px + py * 64) ≠ cellAt t.fb (px + py * 64) ↔
          SpriteCovers s (valV t x) (valV t y) n.val px py)) ∧
      (valV t x = valV s x → valV t y = valV s y → Same s u .fb)

/-! ### 45_timers_keys.md -/

/-- R200, R201 and R202: the key skips; a key index of 16 or more reads as not pressed. -/
def Obligations.KeySkips : Prop :=
  DecodesAs 0xF0FF 0xE09E (fun op => .skp (fieldX op)) ∧ DecodesAs 0xF0FF 0xE0A1 (fun op => .sknp (fieldX op)) ∧
    ∀ (s : State) (x : Reg),
      SkipsWhen (.skp x) s (∃ k : Fin 16, k.val = valV s x ∧ s.keys[k] = true) ∧
        SkipsWhen (.sknp x) s (¬∃ k : Fin 16, k.val = valV s x ∧ s.keys[k] = true)

/-- R204: FX0A stores the highest pressed key index, or, with no key pressed, changes nothing at all, so that the next step fetches
it again; the timers tick on a step that waits. -/
def Obligations.KeyWaitTakesHighestKey : Prop :=
  DecodesAs 0xF0FF 0xF00A (fun op => .ldVxK (fieldX op)) ∧
    (∀ (s : State) (x : Reg),
      ((∀ k : Fin 16, s.keys[k] = false) → exec (.ldVxK x) s = .next s) ∧
        ∀ k : Fin 16, s.keys[k] = true → (∀ j : Fin 16, k < j → s.keys[j] = false) → WritesOnlyV (.ldVxK x) s x k.val) ∧
    ∀ (s : State) (x : Reg), decodeWord (fetch s) = some (.ldVxK x) → (∀ k : Fin 16, s.keys[k] = false) →
      ∃ t, step s = .next t ∧ decodeWord (fetch t) = some (.ldVxK x) ∧ t.dt.toNat = s.dt.toNat - 1 ∧
        t.st.toNat = s.st.toNat - 1 ∧ SameBut [.dt, .st, .ev, .inputs] s t

/-- R203: FX07 reads the delay timer as it was before the step's timer pass. -/
def Obligations.DelayTimerIsReadBeforeItsTick : Prop :=
  DecodesAs 0xF0FF 0xF007 (fun op => .ldVxDt (fieldX op)) ∧
    (∀ (s : State) (x : Reg), WritesOnlyV (.ldVxDt x) s x s.dt.toNat) ∧
    ∀ (s : State) (x : Reg), decodeWord (fetch s) = some (.ldVxDt x) →
      ∃ t, step s = .next t ∧ readV t x = s.dt ∧ t.dt.toNat = s.dt.toNat - 1

/-- R205 and R206: the timer loads. That the timer pass of the same step counts the new value down, and that a sound timer set to 1
emits the tone at once, is the spec's own inference, from R230 and R231 ("the timer pass of the same step then decrements the new
value"). -/
def Obligations.TimerLoads : Prop :=
  DecodesAs 0xF0FF 0xF015 (fun op => .ldDtVx (fieldX op)) ∧ DecodesAs 0xF0FF 0xF018 (fun op => .ldStVx (fieldX op)) ∧
    (∀ (s : State) (x : Reg),
      (∃ t, exec (.ldDtVx x) s = .next t ∧ t.dt.toNat = valV s x ∧ PcMovesBy 2 s t ∧ SameBut [.dt, .pc] s t) ∧
        ∃ t, exec (.ldStVx x) s = .next t ∧ t.st.toNat = valV s x ∧ PcMovesBy 2 s t ∧ SameBut [.st, .pc] s t) ∧
    (∀ (s : State) (x : Reg), decodeWord (fetch s) = some (.ldDtVx x) →
      ∃ t, step s = .next t ∧ t.dt.toNat = valV s x - 1) ∧
    ∀ (s : State) (x : Reg), decodeWord (fetch s) = some (.ldStVx x) →
      ∃ t, step s = .next t ∧ t.st.toNat = valV s x - 1 ∧ (t.ev.tone = true ↔ valV s x = 1)
end

