-- ==== Sys2Proof/Laws/Decode.lean ====
section
/-! SUPPORT. The fields of an opcode and of an encoded instruction as numbers (30_encoding.md R71, R82): what the decoder and the
encoder are compared through. -/

namespace Sys2Proof

/-! ### The fields of an opcode -/

theorem toNat_fieldF (op : Word) : (fieldF op).toNat = op.toNat / 4096 := by
  have := op.isLt
  simp only [fieldF, BitVec.extractLsb'_toNat, Nat.shiftRight_eq_div_pow]; omega

theorem val_fieldX (op : Word) : (fieldX op).val = op.toNat / 256 % 16 := by
  change (op.extractLsb' 8 4).toNat = _
  simp only [BitVec.extractLsb'_toNat, Nat.shiftRight_eq_div_pow]

theorem val_fieldY (op : Word) : (fieldY op).val = op.toNat / 16 % 16 := by
  change (op.extractLsb' 4 4).toNat = _
  simp only [BitVec.extractLsb'_toNat, Nat.shiftRight_eq_div_pow]

theorem toNat_fieldN (op : Word) : (fieldN op).toNat = op.toNat % 16 := by
  simp only [fieldN, BitVec.extractLsb'_toNat, Nat.shiftRight_eq_div_pow]; omega

theorem val_fieldRows (op : Word) : (fieldRows op).val = op.toNat % 16 := toNat_fieldN op

theorem toNat_fieldNN (op : Word) : (fieldNN op).toNat = op.toNat % 256 := by
  simp only [fieldNN, BitVec.extractLsb'_toNat, Nat.shiftRight_eq_div_pow]; omega

theorem toNat_fieldNNN (op : Word) : (fieldNNN op).toNat = op.toNat % 4096 := by
  simp only [fieldNNN, BitVec.extractLsb'_toNat, Nat.shiftRight_eq_div_pow]; omega

/-- The keys of the two-level dispatch, read as numbers. -/
theorem fieldF_eq_iff (op : Word) (k : Nibble) : fieldF op = k ↔ op.toNat / 4096 = k.toNat := by
  rw [← toNat_fieldF]; exact BitVec.toNat_eq

theorem fieldN_eq_iff (op : Word) (k : Nibble) : fieldN op = k ↔ op.toNat % 16 = k.toNat := by
  rw [← toNat_fieldN]; exact BitVec.toNat_eq

theorem fieldNN_eq_iff (op : Word) (k : Byte) : fieldNN op = k ↔ op.toNat % 256 = k.toNat := by
  rw [← toNat_fieldNN]; exact BitVec.toNat_eq

theorem fieldNNN_eq_iff (op : Word) (k : Addr12) : fieldNNN op = k ↔ op.toNat % 4096 = k.toNat := by
  rw [← toNat_fieldNNN]; exact BitVec.toNat_eq

/-! ### The masks of the opcode map: they keep the first nibble and the low bits that a row fixes -/

/-- The OR of a multiple of `2^k` and a number below `2^k` is their sum. -/
theorem nat_or_add {a b k : Nat} (ha : a % 2 ^ k = 0) (hb : b < 2 ^ k) : a ||| b = a + b := by
  obtain ⟨c, rfl⟩ := Nat.dvd_of_mod_eq_zero ha
  rw [Nat.mul_comm, ← Nat.shiftLeft_eq, Nat.shiftLeft_add_eq_or_of_lt hb]

theorem toNat_and_F000 (op : Word) : (op &&& 0xF000#16).toNat = op.toNat / 4096 * 4096 := by
  have h : op &&& 0xF000#16 = op >>> 12 <<< 12 := by
    ext i hi
    have : i < 16 := hi
    interval_cases i <;> simp
  rw [h, BitVec.toNat_shiftLeft, BitVec.toNat_ushiftRight, Nat.shiftLeft_eq, Nat.shiftRight_eq_div_pow]
  have := op.isLt; omega

theorem toNat_and_low (op : Word) (k : Nat) (hk : k < 16) :
    (op &&& BitVec.ofNat 16 (2 ^ k - 1)).toNat = op.toNat % 2 ^ k := by
  have h : 2 ^ k ≤ 2 ^ 15 := Nat.pow_le_pow_right (by decide) (by omega)
  rw [BitVec.toNat_and, BitVec.toNat_ofNat, Nat.mod_eq_of_lt (by omega), Nat.and_two_pow_sub_one_eq_mod]

theorem toNat_and_F00F (op : Word) : (op &&& 0xF00F#16).toNat = op.toNat / 4096 * 4096 + op.toNat % 16 := by
  have h : op &&& 0xF00F#16 = (op &&& 0xF000#16) ||| (op &&& BitVec.ofNat 16 (2 ^ 4 - 1)) := by
    rw [← BitVec.and_or_distrib_left]; rfl
  rw [h, BitVec.toNat_or, toNat_and_F000, toNat_and_low op 4 (by decide), nat_or_add (k := 12) (by omega) (by omega)]; rfl

theorem toNat_and_F0FF (op : Word) : (op &&& 0xF0FF#16).toNat = op.toNat / 4096 * 4096 + op.toNat % 256 := by
  have h : op &&& 0xF0FF#16 = (op &&& 0xF000#16) ||| (op &&& BitVec.ofNat 16 (2 ^ 8 - 1)) := by
    rw [← BitVec.and_or_distrib_left]; rfl
  rw [h, BitVec.toNat_or, toNat_and_F000, toNat_and_low op 8 (by decide), nat_or_add (k := 12) (by omega) (by omega)]; rfl

theorem and_FFFF (op : Word) : op &&& 0xFFFF#16 = op := by
  have h : (0xFFFF#16 : Word) = BitVec.allOnes 16 := by decide
  rw [h, BitVec.and_allOnes]

/-! ### The words of the encoder (R82) as sums of their fields -/

theorem toNat_encodeXYN (m : Word) (x y n : Fin 16) (hm : m.toNat % 4096 = 0) :
    (encodeXYN m x y n).toNat = m.toNat + x.val * 256 + y.val * 16 + n.val := by
  have h := m.isLt; have hx := x.isLt; have hy := y.isLt; have hn := n.isLt
  have e1 : (x.val % 2 ^ 16) <<< 8 % 2 ^ 16 = x.val * 256 := by rw [Nat.shiftLeft_eq]; omega
  have e2 : (y.val % 2 ^ 16) <<< 4 % 2 ^ 16 = y.val * 16 := by rw [Nat.shiftLeft_eq]; omega
  simp only [encodeXYN, BitVec.toNat_or, BitVec.toNat_shiftLeft, BitVec.toNat_ofNat, Nat.mod_eq_of_lt (show n.val < 2 ^ 16 by omega), e1, e2]
  rw [nat_or_add (k := 12) hm (by omega), nat_or_add (k := 8) (a := m.toNat + x.val * 256) (by omega) (by omega),
    nat_or_add (k := 4) (by omega) (by omega)]

theorem toNat_encodeXNN (m : Word) (x : Reg) (nn : Byte) (hm : m.toNat % 4096 = 0) :
    (encodeXNN m x nn).toNat = m.toNat + x.val * 256 + nn.toNat := by
  have h := m.isLt; have hx := x.isLt; have hn := nn.isLt
  have e1 : (x.val % 2 ^ 16) <<< 8 % 2 ^ 16 = x.val * 256 := by rw [Nat.shiftLeft_eq]; omega
  simp only [encodeXNN, BitVec.toNat_or, BitVec.toNat_shiftLeft, BitVec.toNat_ofNat, e1, BitVec.toNat_setWidth,
    Nat.mod_eq_of_lt (show nn.toNat < 2 ^ 16 by omega)]
  rw [nat_or_add (k := 12) hm (by omega), nat_or_add (k := 8) (by omega) (by omega)]

theorem toNat_encodeNNN (m : Word) (nnn : Addr12) (hm : m.toNat % 4096 = 0) :
    (encodeNNN m nnn).toNat = m.toNat + nnn.toNat := by
  have h := m.isLt; have hn := nnn.isLt
  simp only [encodeNNN, BitVec.toNat_or, BitVec.toNat_setWidth]
  rw [nat_or_add (k := 12) hm (by omega)]
  omega

theorem toNat_encodeX (m : Word) (x : Reg) (hm : m.toNat / 256 % 16 = 0) :
    (encodeX m x).toNat = m.toNat + x.val * 256 := by
  have hx := x.isLt
  have e1 : (x.val % 2 ^ 16) <<< 8 % 2 ^ 16 = x.val * 256 := by rw [Nat.shiftLeft_eq]; omega
  have e2 : m.toNat = m.toNat / 4096 * 4096 ||| m.toNat % 256 := by
    rw [nat_or_add (k := 12) (Nat.mul_mod_left _ 4096) (by omega)]; omega
  simp only [encodeX, BitVec.toNat_or, BitVec.toNat_shiftLeft, BitVec.toNat_ofNat, e1]
  rw [e2, Nat.or_assoc, Nat.or_comm (m.toNat % 256), ← Nat.or_assoc,
    nat_or_add (k := 12) (b := x.val * 256) (Nat.mul_mod_left _ 4096) (by omega),
    nat_or_add (k := 8) (b := m.toNat % 256) (by omega) (by omega), ← e2]
  omega

end Sys2Proof
end

