-- ==== Sys2Proof/Laws/State.lean ====
section
/-! SUPPORT. One lemma per field per update, true by `rfl`, so that no proof unfolds a record update; then the same for the reads
of a register and of a byte of memory. -/

namespace Sys2Proof.Machine

variable (s : State)

/-! ### writeV -/

@[simp] theorem writeV_font (r : Reg) (b : Byte) : (writeV s r b).font = s.font := rfl
@[simp] theorem writeV_mem (r : Reg) (b : Byte) : (writeV s r b).mem = s.mem := rfl
@[simp] theorem writeV_v (r : Reg) (b : Byte) : (writeV s r b).v = s.v.set r.val b r.isLt := rfl
@[simp] theorem writeV_i (r : Reg) (b : Byte) : (writeV s r b).i = s.i := rfl
@[simp] theorem writeV_pc (r : Reg) (b : Byte) : (writeV s r b).pc = s.pc := rfl
@[simp] theorem writeV_sp (r : Reg) (b : Byte) : (writeV s r b).sp = s.sp := rfl
@[simp] theorem writeV_stack (r : Reg) (b : Byte) : (writeV s r b).stack = s.stack := rfl
@[simp] theorem writeV_dt (r : Reg) (b : Byte) : (writeV s r b).dt = s.dt := rfl
@[simp] theorem writeV_st (r : Reg) (b : Byte) : (writeV s r b).st = s.st := rfl
@[simp] theorem writeV_keys (r : Reg) (b : Byte) : (writeV s r b).keys = s.keys := rfl
@[simp] theorem writeV_fb (r : Reg) (b : Byte) : (writeV s r b).fb = s.fb := rfl
@[simp] theorem writeV_redraw (r : Reg) (b : Byte) : (writeV s r b).redraw = s.redraw := rfl
@[simp] theorem writeV_ev (r : Reg) (b : Byte) : (writeV s r b).ev = s.ev := rfl
@[simp] theorem writeV_randIn (r : Reg) (b : Byte) : (writeV s r b).randIn = s.randIn := rfl
@[simp] theorem writeV_stepNo (r : Reg) (b : Byte) : (writeV s r b).stepNo = s.stepNo := rfl
@[simp] theorem memRead_writeV (r : Reg) (b : Byte) (q : Nat) : memRead (writeV s r b) q = memRead s q := by simp only [memRead, writeV_font, writeV_mem]

/-! ### setI -/

@[simp] theorem setI_font (w : Word) : (setI s w).font = s.font := rfl
@[simp] theorem setI_mem (w : Word) : (setI s w).mem = s.mem := rfl
@[simp] theorem setI_v (w : Word) : (setI s w).v = s.v := rfl
@[simp] theorem setI_i (w : Word) : (setI s w).i = w := rfl
@[simp] theorem setI_pc (w : Word) : (setI s w).pc = s.pc := rfl
@[simp] theorem setI_sp (w : Word) : (setI s w).sp = s.sp := rfl
@[simp] theorem setI_stack (w : Word) : (setI s w).stack = s.stack := rfl
@[simp] theorem setI_dt (w : Word) : (setI s w).dt = s.dt := rfl
@[simp] theorem setI_st (w : Word) : (setI s w).st = s.st := rfl
@[simp] theorem setI_keys (w : Word) : (setI s w).keys = s.keys := rfl
@[simp] theorem setI_fb (w : Word) : (setI s w).fb = s.fb := rfl
@[simp] theorem setI_redraw (w : Word) : (setI s w).redraw = s.redraw := rfl
@[simp] theorem setI_ev (w : Word) : (setI s w).ev = s.ev := rfl
@[simp] theorem setI_randIn (w : Word) : (setI s w).randIn = s.randIn := rfl
@[simp] theorem setI_stepNo (w : Word) : (setI s w).stepNo = s.stepNo := rfl
@[simp] theorem readV_setI (w : Word) (q : Reg) : readV (setI s w) q = readV s q := rfl
@[simp] theorem memRead_setI (w : Word) (q : Nat) : memRead (setI s w) q = memRead s q := by simp only [memRead, setI_font, setI_mem]

/-! ### setDt -/

@[simp] theorem setDt_font (b : Byte) : (setDt s b).font = s.font := rfl
@[simp] theorem setDt_mem (b : Byte) : (setDt s b).mem = s.mem := rfl
@[simp] theorem setDt_v (b : Byte) : (setDt s b).v = s.v := rfl
@[simp] theorem setDt_i (b : Byte) : (setDt s b).i = s.i := rfl
@[simp] theorem setDt_pc (b : Byte) : (setDt s b).pc = s.pc := rfl
@[simp] theorem setDt_sp (b : Byte) : (setDt s b).sp = s.sp := rfl
@[simp] theorem setDt_stack (b : Byte) : (setDt s b).stack = s.stack := rfl
@[simp] theorem setDt_dt (b : Byte) : (setDt s b).dt = b := rfl
@[simp] theorem setDt_st (b : Byte) : (setDt s b).st = s.st := rfl
@[simp] theorem setDt_keys (b : Byte) : (setDt s b).keys = s.keys := rfl
@[simp] theorem setDt_fb (b : Byte) : (setDt s b).fb = s.fb := rfl
@[simp] theorem setDt_redraw (b : Byte) : (setDt s b).redraw = s.redraw := rfl
@[simp] theorem setDt_ev (b : Byte) : (setDt s b).ev = s.ev := rfl
@[simp] theorem setDt_randIn (b : Byte) : (setDt s b).randIn = s.randIn := rfl
@[simp] theorem setDt_stepNo (b : Byte) : (setDt s b).stepNo = s.stepNo := rfl
@[simp] theorem readV_setDt (b : Byte) (q : Reg) : readV (setDt s b) q = readV s q := rfl
@[simp] theorem memRead_setDt (b : Byte) (q : Nat) : memRead (setDt s b) q = memRead s q := by simp only [memRead, setDt_font, setDt_mem]

/-! ### setSt -/

@[simp] theorem setSt_font (b : Byte) : (setSt s b).font = s.font := rfl
@[simp] theorem setSt_mem (b : Byte) : (setSt s b).mem = s.mem := rfl
@[simp] theorem setSt_v (b : Byte) : (setSt s b).v = s.v := rfl
@[simp] theorem setSt_i (b : Byte) : (setSt s b).i = s.i := rfl
@[simp] theorem setSt_pc (b : Byte) : (setSt s b).pc = s.pc := rfl
@[simp] theorem setSt_sp (b : Byte) : (setSt s b).sp = s.sp := rfl
@[simp] theorem setSt_stack (b : Byte) : (setSt s b).stack = s.stack := rfl
@[simp] theorem setSt_dt (b : Byte) : (setSt s b).dt = s.dt := rfl
@[simp] theorem setSt_st (b : Byte) : (setSt s b).st = b := rfl
@[simp] theorem setSt_keys (b : Byte) : (setSt s b).keys = s.keys := rfl
@[simp] theorem setSt_fb (b : Byte) : (setSt s b).fb = s.fb := rfl
@[simp] theorem setSt_redraw (b : Byte) : (setSt s b).redraw = s.redraw := rfl
@[simp] theorem setSt_ev (b : Byte) : (setSt s b).ev = s.ev := rfl
@[simp] theorem setSt_randIn (b : Byte) : (setSt s b).randIn = s.randIn := rfl
@[simp] theorem setSt_stepNo (b : Byte) : (setSt s b).stepNo = s.stepNo := rfl
@[simp] theorem readV_setSt (b : Byte) (q : Reg) : readV (setSt s b) q = readV s q := rfl
@[simp] theorem memRead_setSt (b : Byte) (q : Nat) : memRead (setSt s b) q = memRead s q := by simp only [memRead, setSt_font, setSt_mem]

/-! ### setPc -/

@[simp] theorem setPc_font (w : Word) : (setPc s w).font = s.font := rfl
@[simp] theorem setPc_mem (w : Word) : (setPc s w).mem = s.mem := rfl
@[simp] theorem setPc_v (w : Word) : (setPc s w).v = s.v := rfl
@[simp] theorem setPc_i (w : Word) : (setPc s w).i = s.i := rfl
@[simp] theorem setPc_pc (w : Word) : (setPc s w).pc = w := rfl
@[simp] theorem setPc_sp (w : Word) : (setPc s w).sp = s.sp := rfl
@[simp] theorem setPc_stack (w : Word) : (setPc s w).stack = s.stack := rfl
@[simp] theorem setPc_dt (w : Word) : (setPc s w).dt = s.dt := rfl
@[simp] theorem setPc_st (w : Word) : (setPc s w).st = s.st := rfl
@[simp] theorem setPc_keys (w : Word) : (setPc s w).keys = s.keys := rfl
@[simp] theorem setPc_fb (w : Word) : (setPc s w).fb = s.fb := rfl
@[simp] theorem setPc_redraw (w : Word) : (setPc s w).redraw = s.redraw := rfl
@[simp] theorem setPc_ev (w : Word) : (setPc s w).ev = s.ev := rfl
@[simp] theorem setPc_randIn (w : Word) : (setPc s w).randIn = s.randIn := rfl
@[simp] theorem setPc_stepNo (w : Word) : (setPc s w).stepNo = s.stepNo := rfl
@[simp] theorem readV_setPc (w : Word) (q : Reg) : readV (setPc s w) q = readV s q := rfl
@[simp] theorem memRead_setPc (w : Word) (q : Nat) : memRead (setPc s w) q = memRead s q := by simp only [memRead, setPc_font, setPc_mem]

/-! ### pcNext -/

@[simp] theorem pcNext_font : (pcNext s).font = s.font := rfl
@[simp] theorem pcNext_mem : (pcNext s).mem = s.mem := rfl
@[simp] theorem pcNext_v : (pcNext s).v = s.v := rfl
@[simp] theorem pcNext_i : (pcNext s).i = s.i := rfl
@[simp] theorem pcNext_pc : (pcNext s).pc = s.pc + 2 := rfl
@[simp] theorem pcNext_sp : (pcNext s).sp = s.sp := rfl
@[simp] theorem pcNext_stack : (pcNext s).stack = s.stack := rfl
@[simp] theorem pcNext_dt : (pcNext s).dt = s.dt := rfl
@[simp] theorem pcNext_st : (pcNext s).st = s.st := rfl
@[simp] theorem pcNext_keys : (pcNext s).keys = s.keys := rfl
@[simp] theorem pcNext_fb : (pcNext s).fb = s.fb := rfl
@[simp] theorem pcNext_redraw : (pcNext s).redraw = s.redraw := rfl
@[simp] theorem pcNext_ev : (pcNext s).ev = s.ev := rfl
@[simp] theorem pcNext_randIn : (pcNext s).randIn = s.randIn := rfl
@[simp] theorem pcNext_stepNo : (pcNext s).stepNo = s.stepNo := rfl
@[simp] theorem readV_pcNext (q : Reg) : readV (pcNext s) q = readV s q := rfl
@[simp] theorem memRead_pcNext (q : Nat) : memRead (pcNext s) q = memRead s q := by simp only [memRead, pcNext_font, pcNext_mem]

/-! ### pcSkip -/

@[simp] theorem pcSkip_font : (pcSkip s).font = s.font := rfl
@[simp] theorem pcSkip_mem : (pcSkip s).mem = s.mem := rfl
@[simp] theorem pcSkip_v : (pcSkip s).v = s.v := rfl
@[simp] theorem pcSkip_i : (pcSkip s).i = s.i := rfl
@[simp] theorem pcSkip_pc : (pcSkip s).pc = s.pc + 4 := rfl
@[simp] theorem pcSkip_sp : (pcSkip s).sp = s.sp := rfl
@[simp] theorem pcSkip_stack : (pcSkip s).stack = s.stack := rfl
@[simp] theorem pcSkip_dt : (pcSkip s).dt = s.dt := rfl
@[simp] theorem pcSkip_st : (pcSkip s).st = s.st := rfl
@[simp] theorem pcSkip_keys : (pcSkip s).keys = s.keys := rfl
@[simp] theorem pcSkip_fb : (pcSkip s).fb = s.fb := rfl
@[simp] theorem pcSkip_redraw : (pcSkip s).redraw = s.redraw := rfl
@[simp] theorem pcSkip_ev : (pcSkip s).ev = s.ev := rfl
@[simp] theorem pcSkip_randIn : (pcSkip s).randIn = s.randIn := rfl
@[simp] theorem pcSkip_stepNo : (pcSkip s).stepNo = s.stepNo := rfl
@[simp] theorem readV_pcSkip (q : Reg) : readV (pcSkip s) q = readV s q := rfl
@[simp] theorem memRead_pcSkip (q : Nat) : memRead (pcSkip s) q = memRead s q := by simp only [memRead, pcSkip_font, pcSkip_mem]

/-! ### memWrite -/

@[simp] theorem memWrite_font (a : Nat) (b : Byte) : (memWrite s a b).font = s.font := rfl
@[simp] theorem memWrite_mem (a : Nat) (b : Byte) : (memWrite s a b).mem = Memory.write s.font s.mem (a % Config.memSize) b := rfl
@[simp] theorem memWrite_v (a : Nat) (b : Byte) : (memWrite s a b).v = s.v := rfl
@[simp] theorem memWrite_i (a : Nat) (b : Byte) : (memWrite s a b).i = s.i := rfl
@[simp] theorem memWrite_pc (a : Nat) (b : Byte) : (memWrite s a b).pc = s.pc := rfl
@[simp] theorem memWrite_sp (a : Nat) (b : Byte) : (memWrite s a b).sp = s.sp := rfl
@[simp] theorem memWrite_stack (a : Nat) (b : Byte) : (memWrite s a b).stack = s.stack := rfl
@[simp] theorem memWrite_dt (a : Nat) (b : Byte) : (memWrite s a b).dt = s.dt := rfl
@[simp] theorem memWrite_st (a : Nat) (b : Byte) : (memWrite s a b).st = s.st := rfl
@[simp] theorem memWrite_keys (a : Nat) (b : Byte) : (memWrite s a b).keys = s.keys := rfl
@[simp] theorem memWrite_fb (a : Nat) (b : Byte) : (memWrite s a b).fb = s.fb := rfl
@[simp] theorem memWrite_redraw (a : Nat) (b : Byte) : (memWrite s a b).redraw = s.redraw := rfl
@[simp] theorem memWrite_ev (a : Nat) (b : Byte) : (memWrite s a b).ev = s.ev := rfl
@[simp] theorem memWrite_randIn (a : Nat) (b : Byte) : (memWrite s a b).randIn = s.randIn := rfl
@[simp] theorem memWrite_stepNo (a : Nat) (b : Byte) : (memWrite s a b).stepNo = s.stepNo := rfl
@[simp] theorem readV_memWrite (a : Nat) (b : Byte) (q : Reg) : readV (memWrite s a b) q = readV s q := rfl

/-! ### setSp -/

@[simp] theorem setSp_font (b : Byte) : (setSp s b).font = s.font := rfl
@[simp] theorem setSp_mem (b : Byte) : (setSp s b).mem = s.mem := rfl
@[simp] theorem setSp_v (b : Byte) : (setSp s b).v = s.v := rfl
@[simp] theorem setSp_i (b : Byte) : (setSp s b).i = s.i := rfl
@[simp] theorem setSp_pc (b : Byte) : (setSp s b).pc = s.pc := rfl
@[simp] theorem setSp_sp (b : Byte) : (setSp s b).sp = b := rfl
@[simp] theorem setSp_stack (b : Byte) : (setSp s b).stack = s.stack := rfl
@[simp] theorem setSp_dt (b : Byte) : (setSp s b).dt = s.dt := rfl
@[simp] theorem setSp_st (b : Byte) : (setSp s b).st = s.st := rfl
@[simp] theorem setSp_keys (b : Byte) : (setSp s b).keys = s.keys := rfl
@[simp] theorem setSp_fb (b : Byte) : (setSp s b).fb = s.fb := rfl
@[simp] theorem setSp_redraw (b : Byte) : (setSp s b).redraw = s.redraw := rfl
@[simp] theorem setSp_ev (b : Byte) : (setSp s b).ev = s.ev := rfl
@[simp] theorem setSp_randIn (b : Byte) : (setSp s b).randIn = s.randIn := rfl
@[simp] theorem setSp_stepNo (b : Byte) : (setSp s b).stepNo = s.stepNo := rfl
@[simp] theorem readV_setSp (b : Byte) (q : Reg) : readV (setSp s b) q = readV s q := rfl
@[simp] theorem memRead_setSp (b : Byte) (q : Nat) : memRead (setSp s b) q = memRead s q := by simp only [memRead, setSp_font, setSp_mem]

/-! ### setFb -/

@[simp] theorem setFb_font (fb : Framebuffer) : (setFb s fb).font = s.font := rfl
@[simp] theorem setFb_mem (fb : Framebuffer) : (setFb s fb).mem = s.mem := rfl
@[simp] theorem setFb_v (fb : Framebuffer) : (setFb s fb).v = s.v := rfl
@[simp] theorem setFb_i (fb : Framebuffer) : (setFb s fb).i = s.i := rfl
@[simp] theorem setFb_pc (fb : Framebuffer) : (setFb s fb).pc = s.pc := rfl
@[simp] theorem setFb_sp (fb : Framebuffer) : (setFb s fb).sp = s.sp := rfl
@[simp] theorem setFb_stack (fb : Framebuffer) : (setFb s fb).stack = s.stack := rfl
@[simp] theorem setFb_dt (fb : Framebuffer) : (setFb s fb).dt = s.dt := rfl
@[simp] theorem setFb_st (fb : Framebuffer) : (setFb s fb).st = s.st := rfl
@[simp] theorem setFb_keys (fb : Framebuffer) : (setFb s fb).keys = s.keys := rfl
@[simp] theorem setFb_fb (fb : Framebuffer) : (setFb s fb).fb = fb := rfl
@[simp] theorem setFb_redraw (fb : Framebuffer) : (setFb s fb).redraw = s.redraw := rfl
@[simp] theorem setFb_ev (fb : Framebuffer) : (setFb s fb).ev = s.ev := rfl
@[simp] theorem setFb_randIn (fb : Framebuffer) : (setFb s fb).randIn = s.randIn := rfl
@[simp] theorem setFb_stepNo (fb : Framebuffer) : (setFb s fb).stepNo = s.stepNo := rfl
@[simp] theorem readV_setFb (fb : Framebuffer) (q : Reg) : readV (setFb s fb) q = readV s q := rfl
@[simp] theorem memRead_setFb (fb : Framebuffer) (q : Nat) : memRead (setFb s fb) q = memRead s q := by simp only [memRead, setFb_font, setFb_mem]

/-! ### setRedraw -/

@[simp] theorem setRedraw_font (b : Bool) : (setRedraw s b).font = s.font := rfl
@[simp] theorem setRedraw_mem (b : Bool) : (setRedraw s b).mem = s.mem := rfl
@[simp] theorem setRedraw_v (b : Bool) : (setRedraw s b).v = s.v := rfl
@[simp] theorem setRedraw_i (b : Bool) : (setRedraw s b).i = s.i := rfl
@[simp] theorem setRedraw_pc (b : Bool) : (setRedraw s b).pc = s.pc := rfl
@[simp] theorem setRedraw_sp (b : Bool) : (setRedraw s b).sp = s.sp := rfl
@[simp] theorem setRedraw_stack (b : Bool) : (setRedraw s b).stack = s.stack := rfl
@[simp] theorem setRedraw_dt (b : Bool) : (setRedraw s b).dt = s.dt := rfl
@[simp] theorem setRedraw_st (b : Bool) : (setRedraw s b).st = s.st := rfl
@[simp] theorem setRedraw_keys (b : Bool) : (setRedraw s b).keys = s.keys := rfl
@[simp] theorem setRedraw_fb (b : Bool) : (setRedraw s b).fb = s.fb := rfl
@[simp] theorem setRedraw_redraw (b : Bool) : (setRedraw s b).redraw = b := rfl
@[simp] theorem setRedraw_ev (b : Bool) : (setRedraw s b).ev = s.ev := rfl
@[simp] theorem setRedraw_randIn (b : Bool) : (setRedraw s b).randIn = s.randIn := rfl
@[simp] theorem setRedraw_stepNo (b : Bool) : (setRedraw s b).stepNo = s.stepNo := rfl
@[simp] theorem readV_setRedraw (b : Bool) (q : Reg) : readV (setRedraw s b) q = readV s q := rfl
@[simp] theorem memRead_setRedraw (b : Bool) (q : Nat) : memRead (setRedraw s b) q = memRead s q := by simp only [memRead, setRedraw_font, setRedraw_mem]

/-! ### setKeys -/

@[simp] theorem setKeys_font (k : Vector Bool 16) : (setKeys s k).font = s.font := rfl
@[simp] theorem setKeys_mem (k : Vector Bool 16) : (setKeys s k).mem = s.mem := rfl
@[simp] theorem setKeys_v (k : Vector Bool 16) : (setKeys s k).v = s.v := rfl
@[simp] theorem setKeys_i (k : Vector Bool 16) : (setKeys s k).i = s.i := rfl
@[simp] theorem setKeys_pc (k : Vector Bool 16) : (setKeys s k).pc = s.pc := rfl
@[simp] theorem setKeys_sp (k : Vector Bool 16) : (setKeys s k).sp = s.sp := rfl
@[simp] theorem setKeys_stack (k : Vector Bool 16) : (setKeys s k).stack = s.stack := rfl
@[simp] theorem setKeys_dt (k : Vector Bool 16) : (setKeys s k).dt = s.dt := rfl
@[simp] theorem setKeys_st (k : Vector Bool 16) : (setKeys s k).st = s.st := rfl
@[simp] theorem setKeys_keys (k : Vector Bool 16) : (setKeys s k).keys = k := rfl
@[simp] theorem setKeys_fb (k : Vector Bool 16) : (setKeys s k).fb = s.fb := rfl
@[simp] theorem setKeys_redraw (k : Vector Bool 16) : (setKeys s k).redraw = s.redraw := rfl
@[simp] theorem setKeys_ev (k : Vector Bool 16) : (setKeys s k).ev = s.ev := rfl
@[simp] theorem setKeys_randIn (k : Vector Bool 16) : (setKeys s k).randIn = s.randIn := rfl
@[simp] theorem setKeys_stepNo (k : Vector Bool 16) : (setKeys s k).stepNo = s.stepNo := rfl
@[simp] theorem readV_setKeys (k : Vector Bool 16) (q : Reg) : readV (setKeys s k) q = readV s q := rfl
@[simp] theorem memRead_setKeys (k : Vector Bool 16) (q : Nat) : memRead (setKeys s k) q = memRead s q := by simp only [memRead, setKeys_font, setKeys_mem]

/-! ### setEv -/

@[simp] theorem setEv_font (e : StepEvent) : (setEv s e).font = s.font := rfl
@[simp] theorem setEv_mem (e : StepEvent) : (setEv s e).mem = s.mem := rfl
@[simp] theorem setEv_v (e : StepEvent) : (setEv s e).v = s.v := rfl
@[simp] theorem setEv_i (e : StepEvent) : (setEv s e).i = s.i := rfl
@[simp] theorem setEv_pc (e : StepEvent) : (setEv s e).pc = s.pc := rfl
@[simp] theorem setEv_sp (e : StepEvent) : (setEv s e).sp = s.sp := rfl
@[simp] theorem setEv_stack (e : StepEvent) : (setEv s e).stack = s.stack := rfl
@[simp] theorem setEv_dt (e : StepEvent) : (setEv s e).dt = s.dt := rfl
@[simp] theorem setEv_st (e : StepEvent) : (setEv s e).st = s.st := rfl
@[simp] theorem setEv_keys (e : StepEvent) : (setEv s e).keys = s.keys := rfl
@[simp] theorem setEv_fb (e : StepEvent) : (setEv s e).fb = s.fb := rfl
@[simp] theorem setEv_redraw (e : StepEvent) : (setEv s e).redraw = s.redraw := rfl
@[simp] theorem setEv_ev (e : StepEvent) : (setEv s e).ev = e := rfl
@[simp] theorem setEv_randIn (e : StepEvent) : (setEv s e).randIn = s.randIn := rfl
@[simp] theorem setEv_stepNo (e : StepEvent) : (setEv s e).stepNo = s.stepNo := rfl
@[simp] theorem readV_setEv (e : StepEvent) (q : Reg) : readV (setEv s e) q = readV s q := rfl
@[simp] theorem memRead_setEv (e : StepEvent) (q : Nat) : memRead (setEv s e) q = memRead s q := by simp only [memRead, setEv_font, setEv_mem]

/-! ### raiseAnomaly -/

@[simp] theorem raiseAnomaly_font (a : Anomaly) : (raiseAnomaly a s).font = s.font := rfl
@[simp] theorem raiseAnomaly_mem (a : Anomaly) : (raiseAnomaly a s).mem = s.mem := rfl
@[simp] theorem raiseAnomaly_v (a : Anomaly) : (raiseAnomaly a s).v = s.v := rfl
@[simp] theorem raiseAnomaly_i (a : Anomaly) : (raiseAnomaly a s).i = s.i := rfl
@[simp] theorem raiseAnomaly_pc (a : Anomaly) : (raiseAnomaly a s).pc = s.pc := rfl
@[simp] theorem raiseAnomaly_sp (a : Anomaly) : (raiseAnomaly a s).sp = s.sp := rfl
@[simp] theorem raiseAnomaly_stack (a : Anomaly) : (raiseAnomaly a s).stack = s.stack := rfl
@[simp] theorem raiseAnomaly_dt (a : Anomaly) : (raiseAnomaly a s).dt = s.dt := rfl
@[simp] theorem raiseAnomaly_st (a : Anomaly) : (raiseAnomaly a s).st = s.st := rfl
@[simp] theorem raiseAnomaly_keys (a : Anomaly) : (raiseAnomaly a s).keys = s.keys := rfl
@[simp] theorem raiseAnomaly_fb (a : Anomaly) : (raiseAnomaly a s).fb = s.fb := rfl
@[simp] theorem raiseAnomaly_redraw (a : Anomaly) : (raiseAnomaly a s).redraw = s.redraw := rfl
@[simp] theorem raiseAnomaly_ev (a : Anomaly) : (raiseAnomaly a s).ev = a.record s.ev := rfl
@[simp] theorem raiseAnomaly_randIn (a : Anomaly) : (raiseAnomaly a s).randIn = s.randIn := rfl
@[simp] theorem raiseAnomaly_stepNo (a : Anomaly) : (raiseAnomaly a s).stepNo = s.stepNo := rfl
@[simp] theorem readV_raiseAnomaly (a : Anomaly) (q : Reg) : readV (raiseAnomaly a s) q = readV s q := rfl
@[simp] theorem memRead_raiseAnomaly (a : Anomaly) (q : Nat) : memRead (raiseAnomaly a s) q = memRead s q := by simp only [memRead, raiseAnomaly_font, raiseAnomaly_mem]

/-! ### beginStep -/

@[simp] theorem beginStep_font : (beginStep s).font = s.font := rfl
@[simp] theorem beginStep_mem : (beginStep s).mem = s.mem := rfl
@[simp] theorem beginStep_v : (beginStep s).v = s.v := rfl
@[simp] theorem beginStep_i : (beginStep s).i = s.i := rfl
@[simp] theorem beginStep_pc : (beginStep s).pc = s.pc := rfl
@[simp] theorem beginStep_sp : (beginStep s).sp = s.sp := rfl
@[simp] theorem beginStep_stack : (beginStep s).stack = s.stack := rfl
@[simp] theorem beginStep_dt : (beginStep s).dt = s.dt := rfl
@[simp] theorem beginStep_st : (beginStep s).st = s.st := rfl
@[simp] theorem beginStep_keys : (beginStep s).keys = s.keys := rfl
@[simp] theorem beginStep_fb : (beginStep s).fb = s.fb := rfl
@[simp] theorem beginStep_redraw : (beginStep s).redraw = s.redraw := rfl
@[simp] theorem beginStep_ev : (beginStep s).ev = StepEvent.empty := rfl
@[simp] theorem beginStep_randIn : (beginStep s).randIn = s.randIn := rfl
@[simp] theorem beginStep_stepNo : (beginStep s).stepNo = s.stepNo := rfl
@[simp] theorem readV_beginStep (q : Reg) : readV (beginStep s) q = readV s q := rfl
@[simp] theorem memRead_beginStep (q : Nat) : memRead (beginStep s) q = memRead s q := by simp only [memRead, beginStep_font, beginStep_mem]

/-! ### timerPass -/

@[simp] theorem timerPass_font : (timerPass s).font = s.font := rfl
@[simp] theorem timerPass_mem : (timerPass s).mem = s.mem := rfl
@[simp] theorem timerPass_v : (timerPass s).v = s.v := rfl
@[simp] theorem timerPass_i : (timerPass s).i = s.i := rfl
@[simp] theorem timerPass_pc : (timerPass s).pc = s.pc := rfl
@[simp] theorem timerPass_sp : (timerPass s).sp = s.sp := rfl
@[simp] theorem timerPass_stack : (timerPass s).stack = s.stack := rfl
@[simp] theorem timerPass_dt : (timerPass s).dt = tick s.dt := rfl
@[simp] theorem timerPass_st : (timerPass s).st = tick s.st := rfl
@[simp] theorem timerPass_keys : (timerPass s).keys = s.keys := rfl
@[simp] theorem timerPass_fb : (timerPass s).fb = s.fb := rfl
@[simp] theorem timerPass_redraw : (timerPass s).redraw = s.redraw := rfl
@[simp] theorem timerPass_ev : (timerPass s).ev = { s.ev with tone := s.ev.tone || s.st == 1 } := rfl
@[simp] theorem timerPass_randIn : (timerPass s).randIn = s.randIn := rfl
@[simp] theorem timerPass_stepNo : (timerPass s).stepNo = s.stepNo := rfl
@[simp] theorem readV_timerPass (q : Reg) : readV (timerPass s) q = readV s q := rfl
@[simp] theorem memRead_timerPass (q : Nat) : memRead (timerPass s) q = memRead s q := by simp only [memRead, timerPass_font, timerPass_mem]

/-! ### reportRedraw -/

@[simp] theorem reportRedraw_font : (reportRedraw s).font = s.font := rfl
@[simp] theorem reportRedraw_mem : (reportRedraw s).mem = s.mem := rfl
@[simp] theorem reportRedraw_v : (reportRedraw s).v = s.v := rfl
@[simp] theorem reportRedraw_i : (reportRedraw s).i = s.i := rfl
@[simp] theorem reportRedraw_pc : (reportRedraw s).pc = s.pc := rfl
@[simp] theorem reportRedraw_sp : (reportRedraw s).sp = s.sp := rfl
@[simp] theorem reportRedraw_stack : (reportRedraw s).stack = s.stack := rfl
@[simp] theorem reportRedraw_dt : (reportRedraw s).dt = s.dt := rfl
@[simp] theorem reportRedraw_st : (reportRedraw s).st = s.st := rfl
@[simp] theorem reportRedraw_keys : (reportRedraw s).keys = s.keys := rfl
@[simp] theorem reportRedraw_fb : (reportRedraw s).fb = s.fb := rfl
@[simp] theorem reportRedraw_redraw : (reportRedraw s).redraw = s.redraw := rfl
@[simp] theorem reportRedraw_ev : (reportRedraw s).ev = { s.ev with redrawPending := s.redraw } := rfl
@[simp] theorem reportRedraw_randIn : (reportRedraw s).randIn = s.randIn := rfl
@[simp] theorem reportRedraw_stepNo : (reportRedraw s).stepNo = s.stepNo := rfl
@[simp] theorem readV_reportRedraw (q : Reg) : readV (reportRedraw s) q = readV s q := rfl
@[simp] theorem memRead_reportRedraw (q : Nat) : memRead (reportRedraw s) q = memRead s q := by simp only [memRead, reportRedraw_font, reportRedraw_mem]

/-! ### consumeRand -/

@[simp] theorem consumeRand_font : (consumeRand s).font = s.font := rfl
@[simp] theorem consumeRand_mem : (consumeRand s).mem = s.mem := rfl
@[simp] theorem consumeRand_v : (consumeRand s).v = s.v := rfl
@[simp] theorem consumeRand_i : (consumeRand s).i = s.i := rfl
@[simp] theorem consumeRand_pc : (consumeRand s).pc = s.pc := rfl
@[simp] theorem consumeRand_sp : (consumeRand s).sp = s.sp := rfl
@[simp] theorem consumeRand_stack : (consumeRand s).stack = s.stack := rfl
@[simp] theorem consumeRand_dt : (consumeRand s).dt = s.dt := rfl
@[simp] theorem consumeRand_st : (consumeRand s).st = s.st := rfl
@[simp] theorem consumeRand_keys : (consumeRand s).keys = s.keys := rfl
@[simp] theorem consumeRand_fb : (consumeRand s).fb = s.fb := rfl
@[simp] theorem consumeRand_redraw : (consumeRand s).redraw = s.redraw := rfl
@[simp] theorem consumeRand_ev : (consumeRand s).ev = s.ev := rfl
@[simp] theorem consumeRand_randIn : (consumeRand s).randIn = s.randIn.tail := rfl
@[simp] theorem consumeRand_stepNo : (consumeRand s).stepNo = s.stepNo + 1 := rfl
@[simp] theorem readV_consumeRand (q : Reg) : readV (consumeRand s) q = readV s q := rfl
@[simp] theorem memRead_consumeRand (q : Nat) : memRead (consumeRand s) q = memRead s q := by simp only [memRead, consumeRand_font, consumeRand_mem]

/-! ### writeFlag -/

@[simp] theorem writeFlag_font (b : Byte) : (writeFlag s b).font = s.font := rfl
@[simp] theorem writeFlag_mem (b : Byte) : (writeFlag s b).mem = s.mem := rfl
@[simp] theorem writeFlag_v (b : Byte) : (writeFlag s b).v = s.v.set VF.val b VF.isLt := rfl
@[simp] theorem writeFlag_i (b : Byte) : (writeFlag s b).i = s.i := rfl
@[simp] theorem writeFlag_pc (b : Byte) : (writeFlag s b).pc = s.pc := rfl
@[simp] theorem writeFlag_sp (b : Byte) : (writeFlag s b).sp = s.sp := rfl
@[simp] theorem writeFlag_stack (b : Byte) : (writeFlag s b).stack = s.stack := rfl
@[simp] theorem writeFlag_dt (b : Byte) : (writeFlag s b).dt = s.dt := rfl
@[simp] theorem writeFlag_st (b : Byte) : (writeFlag s b).st = s.st := rfl
@[simp] theorem writeFlag_keys (b : Byte) : (writeFlag s b).keys = s.keys := rfl
@[simp] theorem writeFlag_fb (b : Byte) : (writeFlag s b).fb = s.fb := rfl
@[simp] theorem writeFlag_redraw (b : Byte) : (writeFlag s b).redraw = s.redraw := rfl
@[simp] theorem writeFlag_ev (b : Byte) : (writeFlag s b).ev = s.ev := rfl
@[simp] theorem writeFlag_randIn (b : Byte) : (writeFlag s b).randIn = s.randIn := rfl
@[simp] theorem writeFlag_stepNo (b : Byte) : (writeFlag s b).stepNo = s.stepNo := rfl
@[simp] theorem memRead_writeFlag (b : Byte) (q : Nat) : memRead (writeFlag s b) q = memRead s q := by simp only [memRead, writeFlag_font, writeFlag_mem]

/-! ### giveRand -/

@[simp] theorem giveRand_font (rand : Byte) : (giveRand rand s).font = s.font := rfl
@[simp] theorem giveRand_mem (rand : Byte) : (giveRand rand s).mem = s.mem := rfl
@[simp] theorem giveRand_v (rand : Byte) : (giveRand rand s).v = s.v := rfl
@[simp] theorem giveRand_i (rand : Byte) : (giveRand rand s).i = s.i := rfl
@[simp] theorem giveRand_pc (rand : Byte) : (giveRand rand s).pc = s.pc := rfl
@[simp] theorem giveRand_sp (rand : Byte) : (giveRand rand s).sp = s.sp := rfl
@[simp] theorem giveRand_stack (rand : Byte) : (giveRand rand s).stack = s.stack := rfl
@[simp] theorem giveRand_dt (rand : Byte) : (giveRand rand s).dt = s.dt := rfl
@[simp] theorem giveRand_st (rand : Byte) : (giveRand rand s).st = s.st := rfl
@[simp] theorem giveRand_keys (rand : Byte) : (giveRand rand s).keys = s.keys := rfl
@[simp] theorem giveRand_fb (rand : Byte) : (giveRand rand s).fb = s.fb := rfl
@[simp] theorem giveRand_redraw (rand : Byte) : (giveRand rand s).redraw = s.redraw := rfl
@[simp] theorem giveRand_ev (rand : Byte) : (giveRand rand s).ev = s.ev := rfl
@[simp] theorem giveRand_randIn (rand : Byte) : (giveRand rand s).randIn = rand :: s.randIn := rfl
@[simp] theorem giveRand_stepNo (rand : Byte) : (giveRand rand s).stepNo = s.stepNo := rfl
@[simp] theorem readV_giveRand (rand : Byte) (q : Reg) : readV (giveRand rand s) q = readV s q := rfl
@[simp] theorem memRead_giveRand (rand : Byte) (q : Nat) : memRead (giveRand rand s) q = memRead s q := by
  simp only [memRead, giveRand_font, giveRand_mem]

/-! ### writeStack: only the slot changes -/

@[simp] theorem writeStack_font (j : Nat) (w : Word) : (writeStack s j w).font = s.font := by unfold writeStack; split <;> rfl
@[simp] theorem writeStack_mem (j : Nat) (w : Word) : (writeStack s j w).mem = s.mem := by unfold writeStack; split <;> rfl
@[simp] theorem writeStack_v (j : Nat) (w : Word) : (writeStack s j w).v = s.v := by unfold writeStack; split <;> rfl
@[simp] theorem writeStack_i (j : Nat) (w : Word) : (writeStack s j w).i = s.i := by unfold writeStack; split <;> rfl
@[simp] theorem writeStack_pc (j : Nat) (w : Word) : (writeStack s j w).pc = s.pc := by unfold writeStack; split <;> rfl
@[simp] theorem writeStack_sp (j : Nat) (w : Word) : (writeStack s j w).sp = s.sp := by unfold writeStack; split <;> rfl
@[simp] theorem writeStack_dt (j : Nat) (w : Word) : (writeStack s j w).dt = s.dt := by unfold writeStack; split <;> rfl
@[simp] theorem writeStack_st (j : Nat) (w : Word) : (writeStack s j w).st = s.st := by unfold writeStack; split <;> rfl
@[simp] theorem writeStack_keys (j : Nat) (w : Word) : (writeStack s j w).keys = s.keys := by unfold writeStack; split <;> rfl
@[simp] theorem writeStack_fb (j : Nat) (w : Word) : (writeStack s j w).fb = s.fb := by unfold writeStack; split <;> rfl
@[simp] theorem writeStack_redraw (j : Nat) (w : Word) : (writeStack s j w).redraw = s.redraw := by unfold writeStack; split <;> rfl
@[simp] theorem writeStack_ev (j : Nat) (w : Word) : (writeStack s j w).ev = s.ev := by unfold writeStack; split <;> rfl
@[simp] theorem writeStack_randIn (j : Nat) (w : Word) : (writeStack s j w).randIn = s.randIn := by unfold writeStack; split <;> rfl
@[simp] theorem writeStack_stepNo (j : Nat) (w : Word) : (writeStack s j w).stepNo = s.stepNo := by unfold writeStack; split <;> rfl
@[simp] theorem readV_writeStack (j : Nat) (w : Word) (q : Reg) : readV (writeStack s j w) q = readV s q := by
  simp [readV]
@[simp] theorem memRead_writeStack (j : Nat) (w : Word) (q : Nat) : memRead (writeStack s j w) q = memRead s q := by
  simp [memRead]

/-! ### skipIf: only `PC` changes -/

@[simp] theorem skipIf_pc (c : Bool) : (skipIf c s).pc = if c then s.pc + 4 else s.pc + 2 := by cases c <;> rfl
@[simp] theorem skipIf_font (c : Bool) : (skipIf c s).font = s.font := by cases c <;> rfl
@[simp] theorem skipIf_mem (c : Bool) : (skipIf c s).mem = s.mem := by cases c <;> rfl
@[simp] theorem skipIf_v (c : Bool) : (skipIf c s).v = s.v := by cases c <;> rfl
@[simp] theorem skipIf_i (c : Bool) : (skipIf c s).i = s.i := by cases c <;> rfl
@[simp] theorem skipIf_sp (c : Bool) : (skipIf c s).sp = s.sp := by cases c <;> rfl
@[simp] theorem skipIf_stack (c : Bool) : (skipIf c s).stack = s.stack := by cases c <;> rfl
@[simp] theorem skipIf_dt (c : Bool) : (skipIf c s).dt = s.dt := by cases c <;> rfl
@[simp] theorem skipIf_st (c : Bool) : (skipIf c s).st = s.st := by cases c <;> rfl
@[simp] theorem skipIf_keys (c : Bool) : (skipIf c s).keys = s.keys := by cases c <;> rfl
@[simp] theorem skipIf_fb (c : Bool) : (skipIf c s).fb = s.fb := by cases c <;> rfl
@[simp] theorem skipIf_redraw (c : Bool) : (skipIf c s).redraw = s.redraw := by cases c <;> rfl
@[simp] theorem skipIf_ev (c : Bool) : (skipIf c s).ev = s.ev := by cases c <;> rfl
@[simp] theorem skipIf_randIn (c : Bool) : (skipIf c s).randIn = s.randIn := by cases c <;> rfl
@[simp] theorem skipIf_stepNo (c : Bool) : (skipIf c s).stepNo = s.stepNo := by cases c <;> rfl
@[simp] theorem readV_skipIf (c : Bool) (q : Reg) : readV (skipIf c s) q = readV s q := by cases c <;> rfl
@[simp] theorem memRead_skipIf (c : Bool) (q : Nat) : memRead (skipIf c s) q = memRead s q := by cases c <;> rfl

/-! ### memWriteList and loadRegs: what they leave alone -/

@[simp] theorem memWriteList_font (a : Nat) (bs : List Byte) : (memWriteList s a bs).font = s.font := by
  induction bs generalizing s a with
  | nil => rfl
  | cons b bs ih => simp [memWriteList, ih]
@[simp] theorem memWriteList_v (a : Nat) (bs : List Byte) : (memWriteList s a bs).v = s.v := by
  induction bs generalizing s a with
  | nil => rfl
  | cons b bs ih => simp [memWriteList, ih]
@[simp] theorem memWriteList_i (a : Nat) (bs : List Byte) : (memWriteList s a bs).i = s.i := by
  induction bs generalizing s a with
  | nil => rfl
  | cons b bs ih => simp [memWriteList, ih]
@[simp] theorem memWriteList_pc (a : Nat) (bs : List Byte) : (memWriteList s a bs).pc = s.pc := by
  induction bs generalizing s a with
  | nil => rfl
  | cons b bs ih => simp [memWriteList, ih]
@[simp] theorem memWriteList_sp (a : Nat) (bs : List Byte) : (memWriteList s a bs).sp = s.sp := by
  induction bs generalizing s a with
  | nil => rfl
  | cons b bs ih => simp [memWriteList, ih]
@[simp] theorem memWriteList_stack (a : Nat) (bs : List Byte) : (memWriteList s a bs).stack = s.stack := by
  induction bs generalizing s a with
  | nil => rfl
  | cons b bs ih => simp [memWriteList, ih]
@[simp] theorem memWriteList_dt (a : Nat) (bs : List Byte) : (memWriteList s a bs).dt = s.dt := by
  induction bs generalizing s a with
  | nil => rfl
  | cons b bs ih => simp [memWriteList, ih]
@[simp] theorem memWriteList_st (a : Nat) (bs : List Byte) : (memWriteList s a bs).st = s.st := by
  induction bs generalizing s a with
  | nil => rfl
  | cons b bs ih => simp [memWriteList, ih]
@[simp] theorem memWriteList_keys (a : Nat) (bs : List Byte) : (memWriteList s a bs).keys = s.keys := by
  induction bs generalizing s a with
  | nil => rfl
  | cons b bs ih => simp [memWriteList, ih]
@[simp] theorem memWriteList_fb (a : Nat) (bs : List Byte) : (memWriteList s a bs).fb = s.fb := by
  induction bs generalizing s a with
  | nil => rfl
  | cons b bs ih => simp [memWriteList, ih]
@[simp] theorem memWriteList_redraw (a : Nat) (bs : List Byte) : (memWriteList s a bs).redraw = s.redraw := by
  induction bs generalizing s a with
  | nil => rfl
  | cons b bs ih => simp [memWriteList, ih]
@[simp] theorem memWriteList_ev (a : Nat) (bs : List Byte) : (memWriteList s a bs).ev = s.ev := by
  induction bs generalizing s a with
  | nil => rfl
  | cons b bs ih => simp [memWriteList, ih]
@[simp] theorem memWriteList_randIn (a : Nat) (bs : List Byte) : (memWriteList s a bs).randIn = s.randIn := by
  induction bs generalizing s a with
  | nil => rfl
  | cons b bs ih => simp [memWriteList, ih]
@[simp] theorem memWriteList_stepNo (a : Nat) (bs : List Byte) : (memWriteList s a bs).stepNo = s.stepNo := by
  induction bs generalizing s a with
  | nil => rfl
  | cons b bs ih => simp [memWriteList, ih]
@[simp] theorem loadRegs_font (a : Nat) (rs : List Reg) : (loadRegs s a rs).font = s.font := by
  induction rs generalizing s with
  | nil => rfl
  | cons r rs ih => simp [loadRegs, ih]
@[simp] theorem loadRegs_mem (a : Nat) (rs : List Reg) : (loadRegs s a rs).mem = s.mem := by
  induction rs generalizing s with
  | nil => rfl
  | cons r rs ih => simp [loadRegs, ih]
@[simp] theorem loadRegs_i (a : Nat) (rs : List Reg) : (loadRegs s a rs).i = s.i := by
  induction rs generalizing s with
  | nil => rfl
  | cons r rs ih => simp [loadRegs, ih]
@[simp] theorem loadRegs_pc (a : Nat) (rs : List Reg) : (loadRegs s a rs).pc = s.pc := by
  induction rs generalizing s with
  | nil => rfl
  | cons r rs ih => simp [loadRegs, ih]
@[simp] theorem loadRegs_sp (a : Nat) (rs : List Reg) : (loadRegs s a rs).sp = s.sp := by
  induction rs generalizing s with
  | nil => rfl
  | cons r rs ih => simp [loadRegs, ih]
@[simp] theorem loadRegs_stack (a : Nat) (rs : List Reg) : (loadRegs s a rs).stack = s.stack := by
  induction rs generalizing s with
  | nil => rfl
  | cons r rs ih => simp [loadRegs, ih]
@[simp] theorem loadRegs_dt (a : Nat) (rs : List Reg) : (loadRegs s a rs).dt = s.dt := by
  induction rs generalizing s with
  | nil => rfl
  | cons r rs ih => simp [loadRegs, ih]
@[simp] theorem loadRegs_st (a : Nat) (rs : List Reg) : (loadRegs s a rs).st = s.st := by
  induction rs generalizing s with
  | nil => rfl
  | cons r rs ih => simp [loadRegs, ih]
@[simp] theorem loadRegs_keys (a : Nat) (rs : List Reg) : (loadRegs s a rs).keys = s.keys := by
  induction rs generalizing s with
  | nil => rfl
  | cons r rs ih => simp [loadRegs, ih]
@[simp] theorem loadRegs_fb (a : Nat) (rs : List Reg) : (loadRegs s a rs).fb = s.fb := by
  induction rs generalizing s with
  | nil => rfl
  | cons r rs ih => simp [loadRegs, ih]
@[simp] theorem loadRegs_redraw (a : Nat) (rs : List Reg) : (loadRegs s a rs).redraw = s.redraw := by
  induction rs generalizing s with
  | nil => rfl
  | cons r rs ih => simp [loadRegs, ih]
@[simp] theorem loadRegs_ev (a : Nat) (rs : List Reg) : (loadRegs s a rs).ev = s.ev := by
  induction rs generalizing s with
  | nil => rfl
  | cons r rs ih => simp [loadRegs, ih]
@[simp] theorem loadRegs_randIn (a : Nat) (rs : List Reg) : (loadRegs s a rs).randIn = s.randIn := by
  induction rs generalizing s with
  | nil => rfl
  | cons r rs ih => simp [loadRegs, ih]
@[simp] theorem loadRegs_stepNo (a : Nat) (rs : List Reg) : (loadRegs s a rs).stepNo = s.stepNo := by
  induction rs generalizing s with
  | nil => rfl
  | cons r rs ih => simp [loadRegs, ih]
@[simp] theorem readV_memWriteList (a : Nat) (bs : List Byte) (q : Reg) : readV (memWriteList s a bs) q = readV s q := by
  simp [readV]
@[simp] theorem memRead_loadRegs (a : Nat) (rs : List Reg) (q : Nat) : memRead (loadRegs s a rs) q = memRead s q := by
  simp [memRead]

/-! ### Register reads after register writes -/

@[simp] theorem readV_writeV (r q : Reg) (b : Byte) : readV (writeV s r b) q = if q = r then b else readV s q := by
  simp only [readV, writeV, Fin.getElem_fin, Vector.getElem_set, Fin.ext_iff, eq_comm]

@[simp] theorem readV_writeFlag (q : Reg) (b : Byte) : readV (writeFlag s b) q = if q = VF then b else readV s q :=
  readV_writeV s VF q b

/-- R23: VF is written last, so it holds the flag even where it is the destination. -/
@[simp] theorem readV_writeResultAndFlag (x q : Reg) (result flag : Byte) :
    readV (writeResultAndFlag s x result flag) q = if q = VF then flag else if q = x then result else readV s q := by
  simp [writeResultAndFlag]

@[simp] theorem writeResultAndFlag_font (x : Reg) (result flag : Byte) : (writeResultAndFlag s x result flag).font = s.font := by simp [writeResultAndFlag]
@[simp] theorem writeResultAndFlag_mem (x : Reg) (result flag : Byte) : (writeResultAndFlag s x result flag).mem = s.mem := by simp [writeResultAndFlag]
@[simp] theorem writeResultAndFlag_i (x : Reg) (result flag : Byte) : (writeResultAndFlag s x result flag).i = s.i := by simp [writeResultAndFlag]
@[simp] theorem writeResultAndFlag_pc (x : Reg) (result flag : Byte) : (writeResultAndFlag s x result flag).pc = s.pc := by simp [writeResultAndFlag]
@[simp] theorem writeResultAndFlag_sp (x : Reg) (result flag : Byte) : (writeResultAndFlag s x result flag).sp = s.sp := by simp [writeResultAndFlag]
@[simp] theorem writeResultAndFlag_stack (x : Reg) (result flag : Byte) : (writeResultAndFlag s x result flag).stack = s.stack := by simp [writeResultAndFlag]
@[simp] theorem writeResultAndFlag_dt (x : Reg) (result flag : Byte) : (writeResultAndFlag s x result flag).dt = s.dt := by simp [writeResultAndFlag]
@[simp] theorem writeResultAndFlag_st (x : Reg) (result flag : Byte) : (writeResultAndFlag s x result flag).st = s.st := by simp [writeResultAndFlag]
@[simp] theorem writeResultAndFlag_keys (x : Reg) (result flag : Byte) : (writeResultAndFlag s x result flag).keys = s.keys := by simp [writeResultAndFlag]
@[simp] theorem writeResultAndFlag_fb (x : Reg) (result flag : Byte) : (writeResultAndFlag s x result flag).fb = s.fb := by simp [writeResultAndFlag]
@[simp] theorem writeResultAndFlag_redraw (x : Reg) (result flag : Byte) : (writeResultAndFlag s x result flag).redraw = s.redraw := by simp [writeResultAndFlag]
@[simp] theorem writeResultAndFlag_ev (x : Reg) (result flag : Byte) : (writeResultAndFlag s x result flag).ev = s.ev := by simp [writeResultAndFlag]
@[simp] theorem writeResultAndFlag_randIn (x : Reg) (result flag : Byte) : (writeResultAndFlag s x result flag).randIn = s.randIn := by simp [writeResultAndFlag]
@[simp] theorem writeResultAndFlag_stepNo (x : Reg) (result flag : Byte) : (writeResultAndFlag s x result flag).stepNo = s.stepNo := by simp [writeResultAndFlag]
@[simp] theorem memRead_writeResultAndFlag (x : Reg) (result flag : Byte) (q : Nat) :
    memRead (writeResultAndFlag s x result flag) q = memRead s q := by simp [writeResultAndFlag]

/-! ### endStep -/

@[simp] theorem endStep_ev : (endStep s).ev = { s.ev with tone := s.ev.tone || s.st == 1, redrawPending := s.redraw } := by simp [endStep]
@[simp] theorem endStep_dt : (endStep s).dt = tick s.dt := by simp [endStep]
@[simp] theorem endStep_st : (endStep s).st = tick s.st := by simp [endStep]
@[simp] theorem endStep_randIn : (endStep s).randIn = s.randIn.tail := by simp [endStep]
@[simp] theorem endStep_stepNo : (endStep s).stepNo = s.stepNo + 1 := by simp [endStep]
@[simp] theorem endStep_font : (endStep s).font = s.font := by simp [endStep]
@[simp] theorem endStep_mem : (endStep s).mem = s.mem := by simp [endStep]
@[simp] theorem endStep_v : (endStep s).v = s.v := by simp [endStep]
@[simp] theorem endStep_i : (endStep s).i = s.i := by simp [endStep]
@[simp] theorem endStep_pc : (endStep s).pc = s.pc := by simp [endStep]
@[simp] theorem endStep_sp : (endStep s).sp = s.sp := by simp [endStep]
@[simp] theorem endStep_stack : (endStep s).stack = s.stack := by simp [endStep]
@[simp] theorem endStep_keys : (endStep s).keys = s.keys := by simp [endStep]
@[simp] theorem endStep_fb : (endStep s).fb = s.fb := by simp [endStep]
@[simp] theorem endStep_redraw : (endStep s).redraw = s.redraw := by simp [endStep]
@[simp] theorem readV_endStep (q : Reg) : readV (endStep s) q = readV s q := by simp [endStep]
@[simp] theorem memRead_endStep (q : Nat) : memRead (endStep s) q = memRead s q := by simp [endStep]

end Sys2Proof.Machine
end

