-- ==== Sys2Proof/Laws/Memory.lean ====
section
/-! SUPPORT. The laws of the byte memory: a read gives what was last written, and every write keeps the canonical form. -/

namespace Sys2Proof.Machine

variable (font : Font)

/-! ### Reading -/

@[simp] theorem Memory.read_nil (a : Nat) : Memory.read font [] a = Memory.resetImage font a := rfl

theorem Memory.read_cons (c : Host.Cell) (m : Memory) (a : Nat) :
    Memory.read font (c :: m) a = if a = c.1 then c.2 else Memory.read font m a := rfl

/-- Where no cell is listed, a read gives the reset image. -/
theorem Memory.read_unlisted (m : Memory) (a : Nat) (h : ∀ c ∈ m, c.1 ≠ a) :
    Memory.read font m a = Memory.resetImage font a := by
  induction m with
  | nil => rfl
  | cons c m ih =>
    have hc : a ≠ c.1 := (h c (by simp)).symm
    simp [Memory.read_cons, hc, ih (fun d hd => h d (by simp [hd]))]

theorem Memory.read_erase (m : Memory) (a q : Nat) :
    Memory.read font (m.erase a) q = if q = a then Memory.resetImage font a else Memory.read font m q := by
  induction m with
  | nil => by_cases h : q = a <;> simp [Memory.erase, h]
  | cons c m ih =>
    simp only [Memory.erase] at ih
    by_cases hc : c.1 = a
    · by_cases hq : q = a
      · subst hq; simpa [Memory.erase, List.filter_cons, hc] using ih
      · simpa [Memory.erase, List.filter_cons, hc, hq, Memory.read_cons] using ih
    · by_cases hq : q = a
      · subst hq
        simp [Memory.erase, hc, Memory.read_cons, ih, Ne.symm hc]
      · simp [Memory.erase, hc, hq, Memory.read_cons, ih]

theorem Memory.not_mem_erase {m : Memory} {a : Nat} {c : Host.Cell} (h : c ∈ m.erase a) : c.1 ≠ a := by
  simpa using (List.mem_filter.mp h).2

/-- Inserting a cell at an address that is not listed changes the read of that address alone. -/
theorem Memory.read_insert (m : Memory) (a q : Nat) (b : Byte) (h : ∀ c ∈ m, c.1 ≠ a) :
    Memory.read font (m.insert a b) q = if q = a then b else Memory.read font m q := by
  induction m with
  | nil => simp [Memory.insert, Memory.read_cons]
  | cons c m ih =>
    have hc : c.1 ≠ a := h c (by simp)
    by_cases hlt : a < c.1
    · simp [Memory.insert, hlt, Memory.read_cons]
    · by_cases hq : q = a
      · subst hq
        simp [Memory.insert, hlt, Memory.read_cons, Ne.symm hc, ih (fun d hd => h d (by simp [hd]))]
      · simp [Memory.insert, hlt, Memory.read_cons, hq, ih (fun d hd => h d (by simp [hd]))]

/-- A read gives what was last written there; a write leaves every other address alone. -/
theorem Memory.read_write (m : Memory) (a q : Nat) (b : Byte) :
    Memory.read font (Memory.write font m a b) q = if q = a then b else Memory.read font m q := by
  unfold Memory.write
  split
  · next hb => rw [Memory.read_erase]; simp [hb]
  · rw [Memory.read_insert font _ _ _ _ (fun c hc => Memory.not_mem_erase hc), Memory.read_erase]
    by_cases hq : q = a <;> simp [hq]

/-! ### The canonical form -/

/-- What the canonical form says, as a proposition. -/
theorem Memory.wf_iff (m : Memory) :
    Memory.wf font m = true ↔
      (∀ c ∈ m, c.1 < 4096 ∧ c.2 ≠ Memory.resetImage font c.1) ∧ m.Pairwise (fun c d => c.1 < d.1) := by
  induction m with
  | nil => simp [Memory.wf]
  | cons c m ih =>
    simp [Memory.wf, ih]
    tauto

@[simp] theorem Memory.wf_nil : Memory.wf font [] = true := rfl

theorem Memory.wf_erase {m : Memory} (a : Nat) (h : Memory.wf font m = true) : Memory.wf font (m.erase a) = true := by
  rw [Memory.wf_iff] at h ⊢
  exact ⟨fun c hc => h.1 c (List.mem_of_mem_filter hc), h.2.filter _⟩

theorem Memory.mem_insert {m : Memory} {a : Nat} {b : Byte} {c : Host.Cell} :
    c ∈ m.insert a b ↔ c = (a, b) ∨ c ∈ m := by
  induction m with
  | nil => simp [Memory.insert]
  | cons d m ih =>
    by_cases hlt : a < d.1
    · simp [Memory.insert, hlt]
    · simp [Memory.insert, hlt, ih]; tauto

theorem Memory.pairwise_insert {m : Memory} {a : Nat} {b : Byte} (hm : ∀ c ∈ m, c.1 ≠ a)
    (h : m.Pairwise (fun c d : Host.Cell => c.1 < d.1)) :
    (m.insert a b).Pairwise (fun c d : Host.Cell => c.1 < d.1) := by
  induction m with
  | nil => simp [Memory.insert]
  | cons d m ih =>
    rw [List.pairwise_cons] at h
    by_cases hlt : a < d.1
    · rw [Memory.insert, if_pos hlt, List.pairwise_cons, List.forall_mem_cons, List.pairwise_cons]
      exact ⟨⟨hlt, fun c hc => hlt.trans (h.1 c hc)⟩, h⟩
    · have hd : d.1 < a := lt_of_le_of_ne (Nat.le_of_not_lt hlt) (hm d (by simp))
      simp only [Memory.insert, hlt, if_false, List.pairwise_cons]
      refine ⟨fun c hc => ?_, ih (fun c hc => hm c (by simp [hc])) h.2⟩
      rcases Memory.mem_insert.mp hc with rfl | hc
      · exact hd
      · exact h.1 c hc

/-- A write keeps the canonical form. -/
theorem Memory.wf_write {m : Memory} {a : Nat} (b : Byte) (ha : a < 4096) (h : Memory.wf font m = true) :
    Memory.wf font (Memory.write font m a b) = true := by
  unfold Memory.write
  split
  · exact Memory.wf_erase font a h
  · next hb =>
    have he := (Memory.wf_iff font _).mp (Memory.wf_erase font a h)
    rw [Memory.wf_iff]
    refine ⟨fun c hc => ?_, Memory.pairwise_insert (fun c hc => Memory.not_mem_erase hc) he.2⟩
    rcases Memory.mem_insert.mp hc with rfl | hc
    · exact ⟨ha, hb⟩
    · exact he.1 c hc

/-! ### The memory operations of the state -/

variable (s : State)

/-- R52: only the address mod 4096 counts. -/
theorem memRead_mod (a : Nat) : memRead s (a % 4096) = memRead s a := by simp [memRead]

/-- A byte read after a byte write, with the reduction of R52 and R53. -/
theorem memRead_memWrite (a q : Nat) (b : Byte) :
    memRead (memWrite s a b) q = if q % 4096 = a % 4096 then b else memRead s q := by
  simp only [memRead, memWrite_font, memWrite_mem, Memory.read_write, Config.memSize]

theorem memWrite_wf (a : Nat) (b : Byte) (h : Memory.wf s.font s.mem = true) :
    Memory.wf (memWrite s a b).font (memWrite s a b).mem = true := by
  simp only [memWrite_font, memWrite_mem]
  exact Memory.wf_write _ _ (Nat.mod_lt _ (by decide)) h

theorem memWriteList_wf (a : Nat) (bs : List Byte) (h : Memory.wf s.font s.mem = true) :
    Memory.wf (memWriteList s a bs).font (memWriteList s a bs).mem = true := by
  induction bs generalizing s a with
  | nil => exact h
  | cons b bs ih => exact ih _ _ (memWrite_wf s a b h)

theorem storeOpcode_wf (op : Word) (h : Memory.wf s.font s.mem = true) :
    Memory.wf (storeOpcode s op).font (storeOpcode s op).mem = true :=
  memWrite_wf _ _ _ (memWrite_wf _ _ _ h)

/-- A list of bytes written from `a` on changes no byte outside `a` to `a + length - 1`. -/
theorem memRead_memWriteList_outside (a q : Nat) (bs : List Byte)
    (h : ∀ j, j < bs.length → q % 4096 ≠ (a + j) % 4096) : memRead (memWriteList s a bs) q = memRead s q := by
  induction bs generalizing s a with
  | nil => rfl
  | cons b bs ih =>
    rw [memWriteList, ih]
    · rw [memRead_memWrite, if_neg (by simpa using h 0 (by simp))]
    · intro j hj
      have := h (j + 1) (by simpa using hj)
      rwa [show a + 1 + j = a + (j + 1) by omega]

/-- Byte `j` of a list written from `a` on, when the list is no longer than memory. -/
theorem memRead_memWriteList_inside (a j : Nat) (bs : List Byte) (hl : bs.length ≤ 4096) (h : j < bs.length) :
    memRead (memWriteList s a bs) (a + j) = bs[j] := by
  induction bs generalizing s a j with
  | nil => simp at h
  | cons b bs ih =>
    simp only [List.length_cons] at hl h
    rw [memWriteList]
    rcases j with _ | j
    · rw [memRead_memWriteList_outside, memRead_memWrite]
      · simp
      · intro k hk; omega
    · have := ih (memWrite s a b) (a + 1) j (by omega) (by omega)
      simpa [show a + (j + 1) = a + 1 + j by omega] using this

end Sys2Proof.Machine
end

