-- ==== Sys2Proof/Laws/Ops.lean ====
section
/-! SUPPORT. One lemma per shared operation, saying once what it does; the proofs cite these and do not unfold the operations. -/

namespace Sys2Proof.Machine

variable (s : State)

/-! ### The stack -/

theorem readStack_of_lt {j : Nat} (h : j < 16) : readStack s j = some s.stack[j] := by simp [readStack, h]

theorem readStack_of_ge {j : Nat} (h : 16 ≤ j) : readStack s j = none := by simp [readStack, Nat.not_lt.mpr h]

theorem writeStack_getElem {j : Nat} (w : Word) (k : Fin 16) :
    (writeStack s j w).stack[k] = if k.val = j then w else s.stack[k] := by
  unfold writeStack
  split
  · simp [Vector.getElem_set, eq_comm]
  · next h => rw [if_neg]; have := k.isLt; omega

/-! ### The timers -/

/-- R230: a timer above 0 goes down by 1, a timer at 0 stays. -/
theorem tick_toNat (t : Byte) : (tick t).toNat = t.toNat - 1 := by
  unfold tick
  split
  · next h => simp [h]
  · next h =>
    have h0 : t.toNat ≠ 0 := fun h0 => h (BitVec.eq_of_toNat_eq (by simpa using h0))
    have := t.isLt
    rw [BitVec.toNat_sub]; simp; omega

/-! ### The registers that FX65 loads -/

theorem readV_loadRegs (a : Nat) (rs : List Reg) (q : Reg) :
    readV (loadRegs s a rs) q = if q ∈ rs then memRead s (a + q.val) else readV s q := by
  induction rs generalizing s with
  | nil => rfl
  | cons r rs ih =>
    rw [loadRegs, ih]
    by_cases hq : q = r <;> by_cases hm : q ∈ rs <;> simp [hq, hm]

theorem mem_blockRegs (x q : Reg) : q ∈ blockRegs x ↔ q.val ≤ x.val := by
  revert x q; decide

theorem length_blockOfV (x : Reg) : (blockOfV s x).length = x.val + 1 := by
  simp [blockOfV, blockRegs, blockLength]

theorem blockOfV_getElem (x r : Reg) (h : r.val < (blockOfV s x).length) : (blockOfV s x)[r.val] = readV s r := by
  simp [blockOfV, blockRegs]

/-! ### The keys -/

theorem keyPressed_fin (k : Fin 16) : keyPressed s k.val = s.keys[k] := by simp [keyPressed]

theorem keyPressed_of_ge {k : Nat} (h : 16 ≤ k) : keyPressed s k = false := by simp [keyPressed, Nat.not_lt.mpr h]

/-- The scan of R204 over the first `n` keys finds the highest pressed one. -/
theorem scanKeys_eq (p : Nat → Bool) (n : Nat) :
    ((List.range n).foldl (fun found k => if p k then some k else found) (none : Option Nat) = none ↔
        ∀ k, k < n → p k = false) ∧
      ∀ k, k < n → p k = true → (∀ j, k < j → j < n → p j = false) →
        (List.range n).foldl (fun found k => if p k then some k else found) (none : Option Nat) = some k := by
  induction n with
  | zero => simp
  | succ n ih =>
    rw [List.range_succ, List.foldl_append]
    simp only [List.foldl_cons, List.foldl_nil]
    by_cases hn : p n = true
    · simp only [hn, if_true]
      refine ⟨by simp only [reduceCtorEq, false_iff]; exact fun h => by simp [h n (by omega)] at hn, fun k hk hp hj => ?_⟩
      by_cases hkn : k = n
      · simp [hkn]
      · simp [hj n (by omega) (by omega)] at hn
    · simp only [hn]
      refine ⟨?_, fun k hk hp hj => ?_⟩
      · simp only [Bool.false_eq_true, if_false, ih.1]
        refine ⟨fun h k hk => ?_, fun h k hk => h k (by omega)⟩
        by_cases hkn : k = n
        · simpa [hkn] using hn
        · exact h k (by omega)
      · have hkn : k ≠ n := fun e => hn (e ▸ hp)
        simpa using ih.2 k (by omega) hp (fun j h1 h2 => hj j h1 (by omega))

theorem highestKey_none : highestKey s = none ↔ ∀ k : Fin 16, s.keys[k] = false := by
  rw [highestKey, Config.numKeys, (scanKeys_eq (keyPressed s) 16).1]
  exact ⟨fun h k => by rw [← keyPressed_fin]; exact h _ k.isLt, fun h k hk => by rw [keyPressed_fin s ⟨k, hk⟩]; exact h _⟩

theorem highestKey_some (k : Fin 16) (hk : s.keys[k] = true) (hj : ∀ j : Fin 16, k < j → s.keys[j] = false) :
    highestKey s = some k.val := by
  rw [highestKey, Config.numKeys]
  refine (scanKeys_eq (keyPressed s) 16).2 k.val k.isLt (by rw [keyPressed_fin, hk]) (fun j h1 h2 => ?_)
  rw [keyPressed_fin s ⟨j, h2⟩]; exact hj ⟨j, h2⟩ h1

/-! ### The display -/

theorem pixelAt_of_ge {fb : Framebuffer} {x y : Nat} (h : ¬(x < 64 ∧ y < 32)) : pixelAt fb x y = false := by
  unfold pixelAt
  split
  · exact BitVec.getLsbD_of_ge _ _ (by omega)
  · rfl

/-- R32: cell `x + y*64` is the one in column `x` of row `y`. -/
theorem cellAt_eq (fb : Framebuffer) {x y : Nat} (h : x < 64) : cellAt fb (x + y * 64) = pixelAt fb x y := by
  rw [cellAt, Config.fbWidth, show (x + y * 64) % 64 = x by omega, show (x + y * 64) / 64 = y by omega]

theorem pixelAt_flipPixel (fb : Framebuffer) {x y : Nat} (hx : x < 64) (hy : y < 32) (px py : Nat) :
    pixelAt (flipPixel fb x y) px py = (pixelAt fb px py ^^ decide (px = x ∧ py = y)) := by
  unfold flipPixel
  rw [dif_pos hy]
  unfold pixelAt
  split
  · next h =>
    rw [Vector.getElem_set]
    by_cases hyy : y = py
    · subst hyy
      by_cases hpx : px < 64
      · by_cases hxx : px = x
        · subst hxx; simp [hpx]
        · by_cases hlt : px < x
          · simp [hxx, hlt]
          · have : px - x ≠ 0 := by omega
            simp [hxx, hpx, hlt, this]
      · have hxx : px ≠ x := by omega
        simp [hxx, hpx]
    · simp [hyy, Ne.symm hyy]
  · next h =>
    have : py ≠ y := by omega
    simp [this]

@[simp] theorem pixelAt_clearedFramebuffer (x y : Nat) : pixelAt clearedFramebuffer x y = false := by
  simp [pixelAt, clearedFramebuffer]

/-! ### The fetch -/

theorem toNat_wordOfBytes (hi lo : Byte) : (wordOfBytes hi lo).toNat = hi.toNat * 256 + lo.toNat := by
  have h1 := hi.isLt
  have h2 := lo.isLt
  have h3 : hi.toNat <<< 8 % 65536 = hi.toNat <<< 8 := by rw [Nat.shiftLeft_eq]; omega
  simp only [wordOfBytes, zextByte, BitVec.toNat_or, BitVec.toNat_shiftLeft, BitVec.toNat_setWidth]
  rw [Nat.mod_eq_of_lt (by omega : hi.toNat < 2 ^ 16), Nat.mod_eq_of_lt (by omega : lo.toNat < 2 ^ 16)]
  rw [show (2 : Nat) ^ 16 = 65536 from rfl, h3, ← Nat.shiftLeft_add_eq_or_of_lt h2, Nat.shiftLeft_eq]

theorem toNat_highByte (op : Word) : (highByte op).toNat = op.toNat / 256 := by
  have := op.isLt
  simp only [highByte, BitVec.extractLsb'_toNat, Nat.shiftRight_eq_div_pow]; omega

theorem toNat_lowByte (op : Word) : (lowByte op).toNat = op.toNat % 256 := by
  simp only [lowByte, BitVec.extractLsb'_toNat, Nat.shiftRight_eq_div_pow]; omega

@[simp] theorem highByte_wordOfBytes (hi lo : Byte) : highByte (wordOfBytes hi lo) = hi := by
  apply BitVec.eq_of_toNat_eq
  have := lo.isLt
  rw [toNat_highByte, toNat_wordOfBytes]; omega

@[simp] theorem lowByte_wordOfBytes (hi lo : Byte) : lowByte (wordOfBytes hi lo) = lo := by
  apply BitVec.eq_of_toNat_eq
  have := lo.isLt
  rw [toNat_lowByte, toNat_wordOfBytes]; omega

@[simp] theorem wordOfBytes_high_low (op : Word) : wordOfBytes (highByte op) (lowByte op) = op := by
  apply BitVec.eq_of_toNat_eq
  rw [toNat_wordOfBytes, toNat_highByte, toNat_lowByte]; omega

/-- The fetch depends on `PC` and memory alone (R91). -/
theorem fetch_congr {s t : State} (hpc : t.pc = s.pc) (hm : ∀ a, memRead t a = memRead s a) : fetch t = fetch s := by
  simp [fetch, hpc, hm]

@[simp] theorem fetch_beginStep : fetch (beginStep s) = fetch s := fetch_congr rfl (fun _ => memRead_beginStep s _)

@[simp] theorem fetch_giveRand (rand : Byte) : fetch (giveRand rand s) = fetch s :=
  fetch_congr rfl (fun _ => memRead_giveRand s rand _)

/-! ### The random input -/

theorem randByte_of_cons {b : Byte} {bs : List Byte} (h : s.randIn = b :: bs) : randByte s = b := by simp [randByte, h]

@[simp] theorem randByte_giveRand (rand : Byte) : randByte (giveRand rand s) = rand := rfl

@[simp] theorem randByte_beginStep : randByte (beginStep s) = randByte s := rfl

end Sys2Proof.Machine
end

