-- ==== Sys2Proof/Laws/Display.lean ====
section
/-! SUPPORT. What drawing one pixel, one sprite row and a whole sprite does to each cell and to the collision (44_display.md R182). -/

namespace Sys2Proof.Machine

/-- Cell (x, y) lies on the framebuffer (R184). -/
abbrev OnScreen (x y : Nat) : Prop := x < 64 ∧ y < 32

theorem drawPixel_pixel (acc : Blit) (x y px py : Nat) :
    (pixelAt (drawPixel acc x y).fb px py = true ↔
      ¬(pixelAt acc.fb px py = true ↔ (OnScreen px py ∧ px = x ∧ py = y))) := by
  unfold drawPixel
  by_cases h : x < 64 ∧ y < 32
  · rw [if_pos h, pixelAt_flipPixel acc.fb h.1 h.2]
    by_cases hp : px = x ∧ py = y
    · obtain ⟨rfl, rfl⟩ := hp
      simp [OnScreen, h]
    · have hp' : ¬(OnScreen px py ∧ px = x ∧ py = y) := fun hq => hp hq.2
      simp [hp]
  · rw [if_neg h]
    have hp : ¬(OnScreen px py ∧ px = x ∧ py = y) := by rintro ⟨hs, rfl, rfl⟩; exact h hs
    simp [hp]

theorem drawPixel_collision (acc : Blit) (x y : Nat) :
    ((drawPixel acc x y).collision = true ↔ acc.collision = true ∨ (OnScreen x y ∧ pixelAt acc.fb x y = true)) := by
  unfold drawPixel
  by_cases h : x < 64 ∧ y < 32
  · simp [OnScreen, h]
  · simp [OnScreen, h]

/-- The first `k` columns of a sprite row. -/
def drawCols (b : Byte) (vx y k : Nat) (acc : Blit) : Blit :=
  (List.range k).foldl (fun acc col => if b.getLsbD (7 - col) then drawPixel acc (vx + col) y else acc) acc

theorem drawRow_eq_drawCols (b : Byte) (vx y : Nat) (acc : Blit) : drawRow b vx y acc = drawCols b vx y 8 acc := rfl

theorem drawCols_succ (b : Byte) (vx y k : Nat) (acc : Blit) :
    drawCols b vx y (k + 1) acc =
      if b.getLsbD (7 - k) then drawPixel (drawCols b vx y k acc) (vx + k) y else drawCols b vx y k acc := by
  simp [drawCols, List.range_succ]

/-- The first `k` columns of the row byte `b` at column `vx` set a bit on column `px`. -/
def RowCovers (b : Byte) (vx k px : Nat) : Prop := ∃ col, col < k ∧ b.getLsbD (7 - col) = true ∧ px = vx + col

theorem rowCovers_succ (b : Byte) (vx k px : Nat) :
    RowCovers b vx (k + 1) px ↔ RowCovers b vx k px ∨ (b.getLsbD (7 - k) = true ∧ px = vx + k) := by
  constructor
  · rintro ⟨c, hc, hb, hp⟩
    rcases Nat.lt_succ_iff_lt_or_eq.mp hc with h | rfl
    · exact .inl ⟨c, h, hb, hp⟩
    · exact .inr ⟨hb, hp⟩
  · rintro (⟨c, hc, hb, hp⟩ | ⟨hb, hp⟩)
    · exact ⟨c, by omega, hb, hp⟩
    · exact ⟨k, by omega, hb, hp⟩

theorem not_rowCovers_next (b : Byte) (vx k : Nat) : ¬RowCovers b vx k (vx + k) := by
  rintro ⟨c, hc, -, hp⟩; omega

theorem drawCols_pixel (b : Byte) (vx y k : Nat) (acc : Blit) (px py : Nat) :
    (pixelAt (drawCols b vx y k acc).fb px py = true ↔
      ¬(pixelAt acc.fb px py = true ↔ (OnScreen px py ∧ py = y ∧ RowCovers b vx k px))) := by
  induction k with
  | zero => simp [drawCols, RowCovers]
  | succ k ih =>
    rw [drawCols_succ, rowCovers_succ]
    by_cases hb : b.getLsbD (7 - k) = true
    · rw [if_pos hb, drawPixel_pixel, ih]
      by_cases hp : px = vx + k
      · subst hp
        simp only [hb, not_rowCovers_next]; tauto
      · simp only [hb, hp]; tauto
    · rw [if_neg hb, ih]
      simp [hb]

theorem drawCols_collision (b : Byte) (vx y k : Nat) (acc : Blit) :
    ((drawCols b vx y k acc).collision = true ↔
      acc.collision = true ∨ ∃ px, OnScreen px y ∧ RowCovers b vx k px ∧ pixelAt acc.fb px y = true) := by
  induction k with
  | zero => simp [drawCols, RowCovers]
  | succ k ih =>
    rw [drawCols_succ]
    by_cases hb : b.getLsbD (7 - k) = true
    · rw [if_pos hb, drawPixel_collision, ih, drawCols_pixel]
      simp only [rowCovers_succ, hb, not_rowCovers_next, true_and, and_false, iff_false, not_not]
      constructor
      · rintro ((h | ⟨px, hs, hc, hp⟩) | ⟨hs, hp⟩)
        · exact .inl h
        · exact .inr ⟨px, hs, .inl hc, hp⟩
        · exact .inr ⟨vx + k, hs, .inr rfl, hp⟩
      · rintro (h | ⟨px, hs, hc | rfl, hp⟩)
        · exact .inl (.inl h)
        · exact .inl (.inr ⟨px, hs, hc, hp⟩)
        · exact .inr ⟨hs, hp⟩
    · rw [if_neg hb, ih]
      simp [rowCovers_succ, hb]

/-- The first `k` rows of the sprite read from `a` on. -/
def drawRows (s : State) (a vx vy k : Nat) (acc : Blit) : Blit :=
  (List.range k).foldl (fun acc row => drawRow (memRead s (a + row)) vx (vy + row) acc) acc

theorem drawSprite_eq_drawRows (s : State) (a vx vy n : Nat) :
    drawSprite s a vx vy n = drawRows s a vx vy n { fb := s.fb, collision := false } := rfl

theorem drawRows_succ (s : State) (a vx vy k : Nat) (acc : Blit) :
    drawRows s a vx vy (k + 1) acc = drawCols (memRead s (a + k)) vx (vy + k) 8 (drawRows s a vx vy k acc) := by
  simp [drawRows, List.range_succ, drawRow_eq_drawCols]

/-- A set bit of the first `k` rows of the sprite at `a`, drawn at (vx, vy), falls on cell (px, py). -/
def RowsCover (s : State) (a vx vy k px py : Nat) : Prop :=
  ∃ row, row < k ∧ py = vy + row ∧ RowCovers (memRead s (a + row)) vx 8 px

theorem rowsCover_succ (s : State) (a vx vy k px py : Nat) :
    RowsCover s a vx vy (k + 1) px py ↔
      RowsCover s a vx vy k px py ∨ (py = vy + k ∧ RowCovers (memRead s (a + k)) vx 8 px) := by
  constructor
  · rintro ⟨r, hr, hp, hc⟩
    rcases Nat.lt_succ_iff_lt_or_eq.mp hr with h | rfl
    · exact .inl ⟨r, h, hp, hc⟩
    · exact .inr ⟨hp, hc⟩
  · rintro (⟨r, hr, hp, hc⟩ | ⟨hp, hc⟩)
    · exact ⟨r, by omega, hp, hc⟩
    · exact ⟨k, by omega, hp, hc⟩

theorem not_rowsCover_next (s : State) (a vx vy k px : Nat) : ¬RowsCover s a vx vy k px (vy + k) := by
  rintro ⟨r, hr, hp, -⟩; omega

theorem drawRows_pixel (s : State) (a vx vy k : Nat) (acc : Blit) (px py : Nat) :
    (pixelAt (drawRows s a vx vy k acc).fb px py = true ↔
      ¬(pixelAt acc.fb px py = true ↔ (OnScreen px py ∧ RowsCover s a vx vy k px py))) := by
  induction k with
  | zero => simp [drawRows, RowsCover]
  | succ k ih =>
    rw [drawRows_succ, drawCols_pixel, ih, rowsCover_succ]
    by_cases hp : py = vy + k
    · subst hp
      simp only [not_rowsCover_next]; tauto
    · simp only [hp]; tauto

theorem drawRows_collision (s : State) (a vx vy k : Nat) (acc : Blit) :
    ((drawRows s a vx vy k acc).collision = true ↔
      acc.collision = true ∨
        ∃ px py, OnScreen px py ∧ RowsCover s a vx vy k px py ∧ pixelAt acc.fb px py = true) := by
  induction k with
  | zero => simp [drawRows, RowsCover]
  | succ k ih =>
    rw [drawRows_succ, drawCols_collision, ih]
    simp only [drawRows_pixel, not_rowsCover_next, and_false, iff_false, not_not, rowsCover_succ]
    constructor
    · rintro ((h | ⟨px, py, hs, hc, hp⟩) | ⟨px, hs, hc, hp⟩)
      · exact .inl h
      · exact .inr ⟨px, py, hs, .inl hc, hp⟩
      · exact .inr ⟨px, vy + k, hs, .inr ⟨rfl, hc⟩, hp⟩
    · rintro (h | ⟨px, py, hs, hc | ⟨rfl, hc⟩, hp⟩)
      · exact .inl (.inl h)
      · exact .inl (.inr ⟨px, py, hs, hc, hp⟩)
      · exact .inr ⟨px, hs, hc, hp⟩

end Sys2Proof.Machine
end

