-- ==== Sys2Proof/Laws/PerInstr.lean ====
section
/-! SUPPORT. Statements about every instruction as syntax, one lemma per constructor. `EncodeRow`: the encoder's word (R82) is one that
the instruction's own row of the opcode map recognizes (R75). -/

namespace Sys2Proof.Laws

/-- The word of `i` matches the row of `i`: `(op & mask) = match` (R75). -/
def EncodeRow.Statement (i : Instr) : Prop := encode i &&& i.row.mask = i.row.mtch

theorem EncodeRow.cls : EncodeRow.Statement .cls := by unfold EncodeRow.Statement; decide

theorem EncodeRow.ret : EncodeRow.Statement .ret := by unfold EncodeRow.Statement; decide

theorem EncodeRow.jp (nnn : Addr12) : EncodeRow.Statement (.jp nnn) := by
  change encode (.jp nnn) &&& 0xF000#16 = 0x1000#16
  have hnnn := nnn.isLt
  apply BitVec.eq_of_toNat_eq
  rw [toNat_and_F000, encode, toNat_encodeNNN 0x1000 nnn rfl]
  simp; omega

theorem EncodeRow.call (nnn : Addr12) : EncodeRow.Statement (.call nnn) := by
  change encode (.call nnn) &&& 0xF000#16 = 0x2000#16
  have hnnn := nnn.isLt
  apply BitVec.eq_of_toNat_eq
  rw [toNat_and_F000, encode, toNat_encodeNNN 0x2000 nnn rfl]
  simp; omega

theorem EncodeRow.seVxNn (x : Reg) (nn : Byte) : EncodeRow.Statement (.seVxNn x nn) := by
  change encode (.seVxNn x nn) &&& 0xF000#16 = 0x3000#16
  have hx := x.isLt; have hnn := nn.isLt
  apply BitVec.eq_of_toNat_eq
  rw [toNat_and_F000, encode, toNat_encodeXNN 0x3000 x nn rfl]
  simp; omega

theorem EncodeRow.sneVxNn (x : Reg) (nn : Byte) : EncodeRow.Statement (.sneVxNn x nn) := by
  change encode (.sneVxNn x nn) &&& 0xF000#16 = 0x4000#16
  have hx := x.isLt; have hnn := nn.isLt
  apply BitVec.eq_of_toNat_eq
  rw [toNat_and_F000, encode, toNat_encodeXNN 0x4000 x nn rfl]
  simp; omega

theorem EncodeRow.seVxVy (x : Reg) (y : Reg) : EncodeRow.Statement (.seVxVy x y) := by
  change encode (.seVxVy x y) &&& 0xF00F#16 = 0x5000#16
  have hx := x.isLt; have hy := y.isLt
  apply BitVec.eq_of_toNat_eq
  rw [toNat_and_F00F, encode, toNat_encodeXYN 0x5000 x y 0 rfl]
  simp; omega

theorem EncodeRow.ldVxNn (x : Reg) (nn : Byte) : EncodeRow.Statement (.ldVxNn x nn) := by
  change encode (.ldVxNn x nn) &&& 0xF000#16 = 0x6000#16
  have hx := x.isLt; have hnn := nn.isLt
  apply BitVec.eq_of_toNat_eq
  rw [toNat_and_F000, encode, toNat_encodeXNN 0x6000 x nn rfl]
  simp; omega

theorem EncodeRow.addVxNn (x : Reg) (nn : Byte) : EncodeRow.Statement (.addVxNn x nn) := by
  change encode (.addVxNn x nn) &&& 0xF000#16 = 0x7000#16
  have hx := x.isLt; have hnn := nn.isLt
  apply BitVec.eq_of_toNat_eq
  rw [toNat_and_F000, encode, toNat_encodeXNN 0x7000 x nn rfl]
  simp; omega

theorem EncodeRow.ldVxVy (x : Reg) (y : Reg) : EncodeRow.Statement (.ldVxVy x y) := by
  change encode (.ldVxVy x y) &&& 0xF00F#16 = 0x8000#16
  have hx := x.isLt; have hy := y.isLt
  apply BitVec.eq_of_toNat_eq
  rw [toNat_and_F00F, encode, toNat_encodeXYN 0x8000 x y 0 rfl]
  simp; omega

theorem EncodeRow.or (x : Reg) (y : Reg) : EncodeRow.Statement (.or x y) := by
  change encode (.or x y) &&& 0xF00F#16 = 0x8001#16
  have hx := x.isLt; have hy := y.isLt
  apply BitVec.eq_of_toNat_eq
  rw [toNat_and_F00F, encode, toNat_encodeXYN 0x8000 x y 1 rfl]
  simp; omega

theorem EncodeRow.and (x : Reg) (y : Reg) : EncodeRow.Statement (.and x y) := by
  change encode (.and x y) &&& 0xF00F#16 = 0x8002#16
  have hx := x.isLt; have hy := y.isLt
  apply BitVec.eq_of_toNat_eq
  rw [toNat_and_F00F, encode, toNat_encodeXYN 0x8000 x y 2 rfl]
  simp; omega

theorem EncodeRow.xor (x : Reg) (y : Reg) : EncodeRow.Statement (.xor x y) := by
  change encode (.xor x y) &&& 0xF00F#16 = 0x8003#16
  have hx := x.isLt; have hy := y.isLt
  apply BitVec.eq_of_toNat_eq
  rw [toNat_and_F00F, encode, toNat_encodeXYN 0x8000 x y 3 rfl]
  simp; omega

theorem EncodeRow.addVxVy (x : Reg) (y : Reg) : EncodeRow.Statement (.addVxVy x y) := by
  change encode (.addVxVy x y) &&& 0xF00F#16 = 0x8004#16
  have hx := x.isLt; have hy := y.isLt
  apply BitVec.eq_of_toNat_eq
  rw [toNat_and_F00F, encode, toNat_encodeXYN 0x8000 x y 4 rfl]
  simp; omega

theorem EncodeRow.sub (x : Reg) (y : Reg) : EncodeRow.Statement (.sub x y) := by
  change encode (.sub x y) &&& 0xF00F#16 = 0x8005#16
  have hx := x.isLt; have hy := y.isLt
  apply BitVec.eq_of_toNat_eq
  rw [toNat_and_F00F, encode, toNat_encodeXYN 0x8000 x y 5 rfl]
  simp; omega

theorem EncodeRow.shr (x : Reg) (y : Reg) : EncodeRow.Statement (.shr x y) := by
  change encode (.shr x y) &&& 0xF00F#16 = 0x8006#16
  have hx := x.isLt; have hy := y.isLt
  apply BitVec.eq_of_toNat_eq
  rw [toNat_and_F00F, encode, toNat_encodeXYN 0x8000 x y 6 rfl]
  simp; omega

theorem EncodeRow.subn (x : Reg) (y : Reg) : EncodeRow.Statement (.subn x y) := by
  change encode (.subn x y) &&& 0xF00F#16 = 0x8007#16
  have hx := x.isLt; have hy := y.isLt
  apply BitVec.eq_of_toNat_eq
  rw [toNat_and_F00F, encode, toNat_encodeXYN 0x8000 x y 7 rfl]
  simp; omega

theorem EncodeRow.shl (x : Reg) (y : Reg) : EncodeRow.Statement (.shl x y) := by
  change encode (.shl x y) &&& 0xF00F#16 = 0x800E#16
  have hx := x.isLt; have hy := y.isLt
  apply BitVec.eq_of_toNat_eq
  rw [toNat_and_F00F, encode, toNat_encodeXYN 0x8000 x y 14 rfl]
  simp; omega

theorem EncodeRow.sneVxVy (x : Reg) (y : Reg) : EncodeRow.Statement (.sneVxVy x y) := by
  change encode (.sneVxVy x y) &&& 0xF00F#16 = 0x9000#16
  have hx := x.isLt; have hy := y.isLt
  apply BitVec.eq_of_toNat_eq
  rw [toNat_and_F00F, encode, toNat_encodeXYN 0x9000 x y 0 rfl]
  simp; omega

theorem EncodeRow.ldINnn (nnn : Addr12) : EncodeRow.Statement (.ldINnn nnn) := by
  change encode (.ldINnn nnn) &&& 0xF000#16 = 0xA000#16
  have hnnn := nnn.isLt
  apply BitVec.eq_of_toNat_eq
  rw [toNat_and_F000, encode, toNat_encodeNNN 0xA000 nnn rfl]
  simp; omega

theorem EncodeRow.jpV0 (nnn : Addr12) : EncodeRow.Statement (.jpV0 nnn) := by
  change encode (.jpV0 nnn) &&& 0xF000#16 = 0xB000#16
  have hnnn := nnn.isLt
  apply BitVec.eq_of_toNat_eq
  rw [toNat_and_F000, encode, toNat_encodeNNN 0xB000 nnn rfl]
  simp; omega

theorem EncodeRow.rnd (x : Reg) (nn : Byte) : EncodeRow.Statement (.rnd x nn) := by
  change encode (.rnd x nn) &&& 0xF000#16 = 0xC000#16
  have hx := x.isLt; have hnn := nn.isLt
  apply BitVec.eq_of_toNat_eq
  rw [toNat_and_F000, encode, toNat_encodeXNN 0xC000 x nn rfl]
  simp; omega

theorem EncodeRow.drw (x : Reg) (y : Reg) (n : RowCount) : EncodeRow.Statement (.drw x y n) := by
  change encode (.drw x y n) &&& 0xF000#16 = 0xD000#16
  have hx := x.isLt; have hy := y.isLt; have hn := n.isLt
  apply BitVec.eq_of_toNat_eq
  rw [toNat_and_F000, encode, toNat_encodeXYN 0xD000 x y n rfl]
  simp; omega

theorem EncodeRow.skp (x : Reg) : EncodeRow.Statement (.skp x) := by
  change encode (.skp x) &&& 0xF0FF#16 = 0xE09E#16
  have hx := x.isLt
  apply BitVec.eq_of_toNat_eq
  rw [toNat_and_F0FF, encode, toNat_encodeX 0xE09E x rfl]
  simp; omega

theorem EncodeRow.sknp (x : Reg) : EncodeRow.Statement (.sknp x) := by
  change encode (.sknp x) &&& 0xF0FF#16 = 0xE0A1#16
  have hx := x.isLt
  apply BitVec.eq_of_toNat_eq
  rw [toNat_and_F0FF, encode, toNat_encodeX 0xE0A1 x rfl]
  simp; omega

theorem EncodeRow.ldVxDt (x : Reg) : EncodeRow.Statement (.ldVxDt x) := by
  change encode (.ldVxDt x) &&& 0xF0FF#16 = 0xF007#16
  have hx := x.isLt
  apply BitVec.eq_of_toNat_eq
  rw [toNat_and_F0FF, encode, toNat_encodeX 0xF007 x rfl]
  simp; omega

theorem EncodeRow.ldVxK (x : Reg) : EncodeRow.Statement (.ldVxK x) := by
  change encode (.ldVxK x) &&& 0xF0FF#16 = 0xF00A#16
  have hx := x.isLt
  apply BitVec.eq_of_toNat_eq
  rw [toNat_and_F0FF, encode, toNat_encodeX 0xF00A x rfl]
  simp; omega

theorem EncodeRow.ldDtVx (x : Reg) : EncodeRow.Statement (.ldDtVx x) := by
  change encode (.ldDtVx x) &&& 0xF0FF#16 = 0xF015#16
  have hx := x.isLt
  apply BitVec.eq_of_toNat_eq
  rw [toNat_and_F0FF, encode, toNat_encodeX 0xF015 x rfl]
  simp; omega

theorem EncodeRow.ldStVx (x : Reg) : EncodeRow.Statement (.ldStVx x) := by
  change encode (.ldStVx x) &&& 0xF0FF#16 = 0xF018#16
  have hx := x.isLt
  apply BitVec.eq_of_toNat_eq
  rw [toNat_and_F0FF, encode, toNat_encodeX 0xF018 x rfl]
  simp; omega

theorem EncodeRow.addIVx (x : Reg) : EncodeRow.Statement (.addIVx x) := by
  change encode (.addIVx x) &&& 0xF0FF#16 = 0xF01E#16
  have hx := x.isLt
  apply BitVec.eq_of_toNat_eq
  rw [toNat_and_F0FF, encode, toNat_encodeX 0xF01E x rfl]
  simp; omega

theorem EncodeRow.ldFVx (x : Reg) : EncodeRow.Statement (.ldFVx x) := by
  change encode (.ldFVx x) &&& 0xF0FF#16 = 0xF029#16
  have hx := x.isLt
  apply BitVec.eq_of_toNat_eq
  rw [toNat_and_F0FF, encode, toNat_encodeX 0xF029 x rfl]
  simp; omega

theorem EncodeRow.ldBVx (x : Reg) : EncodeRow.Statement (.ldBVx x) := by
  change encode (.ldBVx x) &&& 0xF0FF#16 = 0xF033#16
  have hx := x.isLt
  apply BitVec.eq_of_toNat_eq
  rw [toNat_and_F0FF, encode, toNat_encodeX 0xF033 x rfl]
  simp; omega

theorem EncodeRow.ldMiVx (x : Reg) : EncodeRow.Statement (.ldMiVx x) := by
  change encode (.ldMiVx x) &&& 0xF0FF#16 = 0xF055#16
  have hx := x.isLt
  apply BitVec.eq_of_toNat_eq
  rw [toNat_and_F0FF, encode, toNat_encodeX 0xF055 x rfl]
  simp; omega

theorem EncodeRow.ldVxMi (x : Reg) : EncodeRow.Statement (.ldVxMi x) := by
  change encode (.ldVxMi x) &&& 0xF0FF#16 = 0xF065#16
  have hx := x.isLt
  apply BitVec.eq_of_toNat_eq
  rw [toNat_and_F0FF, encode, toNat_encodeX 0xF065 x rfl]
  simp; omega

end Sys2Proof.Laws
end

