-- ==== Sys2Proof/Laws/Step.lean ====
section
/-! SUPPORT. What a step can do, said once: the two paths of R90, and the cases of the two instructions that touch the stack. -/

namespace Sys2Proof.Machine

variable {s t : State}

/-- A step on an opcode that decodes to `i` is `exec i`, then `endStep` (R90, R95). -/
theorem step_of_decode {i : Instr} (h : decodeWord (fetch s) = some i) : step s = finishStep (exec i (beginStep s)) := by
  simp [step, h]

/-- A step on an unrecognized opcode raises it, then `endStep` (R90, R96). -/
theorem step_of_unrecognized (h : decodeWord (fetch s) = none) :
    step s = .next (endStep (raiseAnomaly (.unknownOpcode (fetch s)) (beginStep s))) := by
  simp [step, h]

theorem finishStep_eq_next {o : Host.Outcome State Fault Refusal} (h : finishStep o = .next t) :
    ∃ u, o = .next u ∧ t = endStep u := by
  cases o with
  | next u => exact ⟨u, rfl, by injection h with h; exact h.symm⟩
  | fault f => cases h
  | refused r => cases h

/-- The inversion of a step: where it answers next `t`, `t` is `endStep` of what the dispatch left. -/
theorem step_cases (h : step s = .next t) :
    (∃ i u, decodeWord (fetch s) = some i ∧ exec i (beginStep s) = .next u ∧ t = endStep u) ∨
      (decodeWord (fetch s) = none ∧ t = endStep (raiseAnomaly (.unknownOpcode (fetch s)) (beginStep s))) := by
  cases hd : decodeWord (fetch s) with
  | some i =>
    rw [step_of_decode hd] at h
    obtain ⟨u, hu, ht⟩ := finishStep_eq_next h
    exact .inl ⟨i, u, rfl, hu, ht⟩
  | none =>
    rw [step_of_unrecognized hd] at h
    injection h with h
    exact .inr ⟨rfl, h.symm⟩

/-- R111: RET with an occupied stack. -/
theorem execRet_of_occupied (j : Fin 16) (h : s.sp.toNat = j.val + 1) :
    execRet s = .next (setPc (setSp s (s.sp - 1)) (s.stack[j] + 2)) := by
  have h0 : s.sp ≠ 0 := by intro h0; simp [h0] at h
  have hj : s.sp.toNat - 1 = j.val := by omega
  rw [execRet, if_neg h0, hj, readStack_of_lt s j.isLt]
  rfl

/-- R111: RET with an empty stack. -/
theorem execRet_of_empty (h : s.sp.toNat = 0) : execRet s = .next (raiseAnomaly (.stackFault (encode .ret)) s) := by
  have h0 : s.sp = 0 := BitVec.eq_of_toNat_eq (by simpa using h)
  rw [execRet, if_pos h0]

/-- RET where the slot does not exist, in a state that no run reaches. -/
theorem execRet_of_beyond (h : 16 < s.sp.toNat) : execRet s = .fault .stackSlotAbsent := by
  have h0 : s.sp ≠ 0 := by intro h0; simp [h0] at h
  rw [execRet, if_neg h0, readStack_of_ge s (by omega)]

/-- R113: CALL with a free slot. -/
theorem execCall_of_free (nnn : Addr12) (h : s.sp.toNat < 16) :
    execCall nnn s = .next (setPc (setSp (writeStack s s.sp.toNat s.pc) (s.sp + 1)) (jumpTarget nnn)) := by
  rw [execCall, Config.stackDepth, if_neg (by omega)]

/-- R113: CALL with a full stack. -/
theorem execCall_of_full (nnn : Addr12) (h : 16 ≤ s.sp.toNat) :
    execCall nnn s = .next (raiseAnomaly (.stackFault (encode (.call nnn))) s) := by
  rw [execCall, Config.stackDepth, if_pos h]

/-! ### The three instructions whose dispatch has more than one outcome: everything each can answer next -/

theorem exec_ret_cases (h : exec .ret s = .next t) :
    (s.sp.toNat = 0 ∧ t = raiseAnomaly (.stackFault (encode .ret)) s) ∨
      ∃ j : Fin 16, s.sp.toNat = j.val + 1 ∧ t = setPc (setSp s (s.sp - 1)) (s.stack[j] + 2) := by
  by_cases h0 : s.sp.toNat = 0
  · rw [exec, execRet_of_empty h0] at h
    injection h with h
    exact .inl ⟨h0, h.symm⟩
  · by_cases h1 : s.sp.toNat ≤ 16
    · have hj : s.sp.toNat = (⟨s.sp.toNat - 1, by omega⟩ : Fin 16).val + 1 := by simp only; omega
      rw [exec, execRet_of_occupied _ hj] at h
      injection h with h
      exact .inr ⟨_, hj, h.symm⟩
    · rw [exec, execRet_of_beyond (by omega)] at h
      cases h

theorem exec_call_cases {nnn : Addr12} (h : exec (.call nnn) s = .next t) :
    (16 ≤ s.sp.toNat ∧ t = raiseAnomaly (.stackFault (encode (.call nnn))) s) ∨
      (s.sp.toNat < 16 ∧ t = setPc (setSp (writeStack s s.sp.toNat s.pc) (s.sp + 1)) (jumpTarget nnn)) := by
  by_cases h0 : s.sp.toNat < 16
  · rw [exec, execCall_of_free nnn h0] at h
    injection h with h
    exact .inr ⟨h0, h.symm⟩
  · rw [exec, execCall_of_full nnn (by omega)] at h
    injection h with h
    exact .inl ⟨by omega, h.symm⟩

theorem exec_ldVxK_cases {x : Reg} (h : exec (.ldVxK x) s = .next t) :
    (highestKey s = none ∧ t = s) ∨ ∃ k, highestKey s = some k ∧ t = pcNext (writeV s x (BitVec.ofNat 8 k)) := by
  simp only [exec, execLdVxK] at h
  split at h <;> injection h with h
  · next k hk => exact .inr ⟨k, hk, h.symm⟩
  · next hk => exact .inl ⟨hk, h.symm⟩

/-! ### Runs -/

@[simp] theorem runSteps_zero (s : State) : runSteps 0 s = .next s := rfl

/-- A run whose first step goes through is that step and the rest of the run. -/
theorem runSteps_succ_of_next (n : Nat) (h : step s = .next t) : runSteps (n + 1) s = runSteps n t := by
  have hs : Sys2Proof.core.step s = .next t := h
  simp only [runSteps, Host.Core.run, hs]; rfl

end Sys2Proof.Machine
end

