-- ==== Sys2Proof/Tests/Slice0.lean ====
section
/-! SUPPORT. The model's own tests. Decoded words are written out bit by bit from the patterns of 30_encoding.md R80; the step tests
are vectors of 95_test_vectors.md, named by their id there; each witness meets the hypotheses of the statement it names. -/

namespace Sys2Proof.Tests

open Sys2Proof Sys2Proof.Machine Sys2Proof.Claims

/-! ### Helpers: small states, made from the state after Reset -/

/-- The opcode `op` stored at `PC`. -/
def prog (op : Word) (s : State := State.reset) : State := storeOpcode s op

/-- The registers named hold the values given. -/
def regs (l : List (Reg × Byte)) (s : State := State.reset) : State := l.foldl (fun s p => writeV s p.1 p.2) s

/-- The bytes named hold the values given. -/
def poke (l : List (Nat × Byte)) (s : State := State.reset) : State := l.foldl (fun s p => memWrite s p.1 p.2) s

/-- The keys of the bits of `k` are pressed. -/
def keyed (k : Word) (s : State := State.reset) : State := hostSetKeys k s

/-- `SP = n`, and every slot holds `w`. -/
def stacked (n : Byte) (w : Word) : State := { State.reset with sp := n, stack := Vector.replicate 16 w }

/-- `PC = w`. -/
def atPc (w : Word) (s : State := State.reset) : State := setPc s w

/-- The outcome is a next state with the property `p`. -/
def passes (o : Host.Outcome State Fault Refusal) (p : State → Bool) : Bool :=
  match o with
  | .next t => p t
  | .fault _ => false
  | .refused _ => false

/-! ### Well-formedness: no term of `Instr` is ill-formed, since an operand has the width of its field; the check that can refuse is
the one on words -/

theorem test_every_instr_is_wf (i : Instr) : i.wf = true := by
  cases i <;> simp [Instr.wf, regWf] <;> omega

theorem test_wf_refuses_group_0 : [0x0000, 0x0123, 0x01E0, 0x00E1, 0x00EF, 0x00FF].any recognizedWord = false := by decide

theorem test_wf_refuses_loose_skips : [0x5121, 0x9121, 0x512F, 0x9128].any recognizedWord = false := by decide

theorem test_wf_refuses_group_8 :
    [0x8008, 0x8009, 0x800A, 0x800B, 0x800C, 0x800D, 0x800F].any recognizedWord = false := by decide

theorem test_wf_refuses_groups_e_f :
    [0xE09F, 0xE0A0, 0xE000, 0xF000, 0xF008, 0xF01F, 0xF030, 0xF075, 0xF0FF].any recognizedWord = false := by decide

/-! ### Decoding: a word of each row of R80, bit by bit -/

theorem test_decode_control :
    decodeWord 0b0000_0000_1110_1110 = some .ret ∧ decodeWord 0b0001_1010_1011_1100 = some (.jp 0xABC) ∧
      decodeWord 0b0010_0010_0000_1100 = some (.call 0x20C) ∧ decodeWord 0b1011_1111_1111_1110 = some (.jpV0 0xFFE) := by
  decide

theorem test_decode_skips :
    decodeWord 0b0011_0011_0100_0010 = some (.seVxNn 3 0x42) ∧ decodeWord 0b0100_0011_0000_0001 = some (.sneVxNn 3 1) ∧
      decodeWord 0b0101_0001_0010_0000 = some (.seVxVy 1 2) ∧ decodeWord 0b1001_0001_0010_0000 = some (.sneVxVy 1 2) ∧
      decodeWord 0b1110_0101_1001_1110 = some (.skp 5) ∧ decodeWord 0b1110_0101_1010_0001 = some (.sknp 5) := by
  decide

theorem test_decode_loads :
    decodeWord 0b0110_1010_0010_1011 = some (.ldVxNn 0xA 0x2B) ∧ decodeWord 0b0111_0000_1111_1111 = some (.addVxNn 0 0xFF) ∧
      decodeWord 0b1000_0001_0010_0000 = some (.ldVxVy 1 2) ∧ decodeWord 0b1100_0011_0000_1111 = some (.rnd 3 0x0F) := by
  decide

theorem test_decode_group_8 :
    decodeWord 0b1000_0001_0010_0001 = some (.or 1 2) ∧ decodeWord 0b1000_0001_0010_0010 = some (.and 1 2) ∧
      decodeWord 0b1000_0001_0010_0011 = some (.xor 1 2) ∧ decodeWord 0b1000_0001_0010_0100 = some (.addVxVy 1 2) ∧
      decodeWord 0b1000_0001_0010_0101 = some (.sub 1 2) ∧ decodeWord 0b1000_0100_0101_0110 = some (.shr 4 5) ∧
      decodeWord 0b1000_0001_0010_0111 = some (.subn 1 2) ∧ decodeWord 0b1000_1111_1111_1110 = some (.shl 0xF 0xF) := by
  decide

theorem test_decode_index_display :
    decodeWord 0b0000_0000_1110_0000 = some .cls ∧ decodeWord 0b1010_0010_1111_0000 = some (.ldINnn 0x2F0) ∧
      decodeWord 0b1101_0000_0001_1111 = some (.drw 0 1 0xF) ∧ decodeWord 0b1111_0010_0001_1110 = some (.addIVx 2) ∧
      decodeWord 0b1111_1010_0010_1001 = some (.ldFVx 0xA) ∧ decodeWord 0b1111_0011_0011_0011 = some (.ldBVx 3) ∧
      decodeWord 0b1111_0001_0101_0101 = some (.ldMiVx 1) ∧ decodeWord 0b1111_0010_0110_0101 = some (.ldVxMi 2) := by
  decide

theorem test_decode_timers_keys :
    decodeWord 0b1111_0001_0000_0111 = some (.ldVxDt 1) ∧ decodeWord 0b1111_0011_0000_1010 = some (.ldVxK 3) ∧
      decodeWord 0b1111_0000_0001_0101 = some (.ldDtVx 0) ∧ decodeWord 0b1111_0001_0001_1000 = some (.ldStVx 1) := by
  decide

theorem test_decode_bytes :
    decode [0x60, 0x05, 0x70] = .ok (.ldVxNn 0 5, [0x70]) ∧ decodeTableWord 16 0x6005 = some (.ldVxNn 0 5) ∧
      decodeTableWord 16 0x0000 = none := by
  decide

/-! ### Control flow (L2.3) -/

theorem test_cf1 : passes (step (prog 0x1234)) (fun t => t.pc == 0x234) = true := by decide

theorem test_cf4 :
    passes (step (prog 0x2300 (stacked 15 7))) (fun t => t.stack[15] == 0x200 && t.sp == 16 && t.pc == 0x300) = true := by
  decide

theorem test_cf5 :
    passes (step (prog 0x2300 (stacked 16 7)))
      (fun t => t.ev.stackFault == some 0x2300 && t.sp == 16 && t.pc == 0x200 && t.stack[15] == 7) = true := by
  decide

theorem test_cf7 :
    passes (step (prog 0x00EE)) (fun t => t.ev.stackFault == some 0x00EE && t.sp == 0 && t.pc == 0x200) = true := by decide

theorem test_cf8 :
    passes (step (prog 0x00EE (stacked 1 0xFFFE))) (fun t => t.sp == 0 && t.pc == 0 && t.stack[0] == 0xFFFE) = true := by
  decide

theorem test_cf10_cf11 :
    passes (step (prog 0x3342 (atPc 0x300 (regs [(3, 0x42)])))) (fun t => t.pc == 0x304) = true ∧
      passes (step (prog 0x3343 (atPc 0x300 (regs [(3, 0x42)])))) (fun t => t.pc == 0x302) = true := by
  decide

theorem test_cf12_cf13 :
    passes (step (prog 0x4342 (atPc 0x300 (regs [(3, 0x42)])))) (fun t => t.pc == 0x302) = true ∧
      passes (step (prog 0x4300 (atPc 0x300 (regs [(3, 0x42)])))) (fun t => t.pc == 0x304) = true := by
  decide

theorem test_cf14 : passes (step (prog 0x5120 (regs [(1, 7), (2, 7)]))) (fun t => t.pc == 0x204) = true := by decide

theorem test_cf16_cf17 :
    passes (step (prog 0x9120 (regs [(1, 7), (2, 8)]))) (fun t => t.pc == 0x204) = true ∧
      passes (step (prog 0x9110 (regs [(1, 7)]))) (fun t => t.pc == 0x202) = true := by
  decide

theorem test_cf19 : passes (step (prog 0xBFFF (regs [(0, 0xFF)]))) (fun t => t.pc == 0x10FE) = true := by decide

theorem test_cf20 : passes (step (prog 0x3000 (atPc 0xFFFE))) (fun t => t.pc == 0x0002) = true := by decide

/-! ### Registers and arithmetic (L2.2) -/

theorem test_a1 : passes (step (prog 0x6A2B)) (fun t => readV t 0xA == 0x2B && t.pc == 0x202) = true := by decide

theorem test_a2 :
    passes (step (prog 0x7001 (regs [(0, 0xFF), (0xF, 0x55)]))) (fun t => readV t 0 == 0 && readV t VF == 0x55) = true := by
  decide

theorem test_a5 : passes (step (prog 0x8120 (regs [(2, 0x55)]))) (fun t => readV t 1 == 0x55) = true := by decide

theorem test_a6 :
    passes (step (prog 0x8121 (regs [(1, 0x0F), (2, 0xF0), (0xF, 7)]))) (fun t => readV t 1 == 0xFF && readV t VF == 7) = true := by
  decide

theorem test_a7 : passes (step (prog 0x8122 (regs [(1, 0x3C), (2, 0x0F)]))) (fun t => readV t 1 == 0x0C) = true := by decide

theorem test_a8 : passes (step (prog 0x8123 (regs [(1, 0x3C), (2, 0x0F)]))) (fun t => readV t 1 == 0x33) = true := by decide

theorem test_a13 : passes (step (prog 0x8FF4 (regs [(0xF, 0x80)]))) (fun t => readV t VF == 1) = true := by decide

theorem test_a15 :
    passes (step (prog 0x81F4 (regs [(1, 2), (0xF, 0xFF)]))) (fun t => readV t 1 == 1 && readV t VF == 1) = true := by
  decide

theorem test_a17 :
    passes (step (prog 0x8125 (regs [(1, 7), (2, 7)]))) (fun t => readV t 1 == 0 && readV t VF == 1) = true := by
  decide

theorem test_e3 :
    passes (step (prog 0x8125 (regs [(1, 5), (2, 0x0A)]))) (fun t => readV t 1 == 0xFB && readV t VF == 0) = true := by
  decide

theorem test_a20 : passes (step (prog 0x8406 (regs [(4, 5)]))) (fun t => readV t 4 == 2 && readV t VF == 1) = true := by
  decide

theorem test_a22 : passes (step (prog 0x8F06 (regs [(0xF, 3)]))) (fun t => readV t VF == 1) = true := by decide

theorem test_a23 :
    passes (step (prog 0x8127 (regs [(1, 0x0A), (2, 5)]))) (fun t => readV t 1 == 0xFB && readV t VF == 0) = true := by
  decide

theorem test_a26 : passes (step (prog 0x840E (regs [(4, 0x81)]))) (fun t => readV t 4 == 2 && readV t VF == 1) = true := by
  decide

theorem test_a28 : passes (step (prog 0x8FFE (regs [(0xF, 0x7F)]))) (fun t => readV t VF == 0) = true := by decide

theorem test_a29 : passes (hostStep 0xAB (prog 0xC30F)) (fun t => readV t 3 == 0x0B) = true := by decide

/-! ### Index register and memory (L2.4) -/

theorem test_m1 : passes (step (prog 0xA2F0)) (fun t => t.i == 0x2F0) = true := by decide

theorem test_m4 :
    passes (step (prog 0xF21E (setI (regs [(2, 1)]) 0xFFFF))) (fun t => t.i == 0 && readV t VF == 1) = true := by decide

theorem test_m6 :
    passes (step (prog 0xFF1E (setI (regs [(0xF, 5)]) 0x100))) (fun t => t.i == 0x105 && readV t VF == 0) = true := by decide

theorem test_m9 : passes (step (prog 0xF129 (regs [(1, 0xFF)]))) (fun t => t.i == 0x04FB) = true := by decide

theorem test_m12 :
    passes (step (prog 0xF133 (setI (regs [(1, 7)]) 0x0FFE)))
      (fun t => memRead t 0xFFE == 0 && memRead t 0xFFF == 0 && memRead t 0 == 7 && t.i == 0x0FFE) = true := by
  decide

theorem test_m13 :
    passes (step (prog 0xF155 (setI (regs [(0, 1), (1, 2), (2, 9)]) 0x300)))
      (fun t => memRead t 0x300 == 1 && memRead t 0x301 == 2 && memRead t 0x302 == 0 && t.i == 0x302) = true := by
  decide

theorem test_m16 :
    passes (step (prog 0xF055 (setI (regs [(0, 0x44)]) 0xFFFF))) (fun t => memRead t 0xFFF == 0x44 && t.i == 0) = true := by
  decide

theorem test_m18 :
    passes (step (prog 0xF265 (setI (poke [(0xFFE, 1), (0xFFF, 2)]) 0x0FFE)))
      (fun t => readV t 0 == 1 && readV t 1 == 2 && readV t 2 == 0xF0 && t.i == 0x1001) = true := by
  decide

theorem test_m19 :
    passes (step (prog 0xFF65 (setI (poke [(0x30F, 0x77)]) 0x300))) (fun t => readV t VF == 0x77 && t.i == 0x310) = true := by
  decide

/-! ### Display (L2.5) -/

theorem test_dr1 :
    passes (step (prog 0x00E0 (setRedraw (setFb State.reset (Vector.replicate 32 1)) false)))
      (fun t => t.fb == clearedFramebuffer && t.redraw && readV t VF == 0) = true := by
  decide

theorem test_dr5 :
    passes (step (prog 0xD011 (setI (poke [(0x300, 0xFF)] (regs [(0, 62)])) 0x300)))
      (fun t => cellAt t.fb 62 && cellAt t.fb 63 && !cellAt t.fb 61 && !cellAt t.fb 64 && readV t VF == 0) = true := by
  decide

theorem test_dr10 :
    passes (step (prog 0xDF11 (setI (poke [(0x300, 0x80)] (regs [(0xF, 5)])) 0x300)))
      (fun t => cellAt t.fb 5 && !cellAt t.fb 0 && readV t VF == 0) = true := by
  decide

/-! ### Timers and keys (L2.6) -/

theorem test_t1_t2 :
    passes (step (prog 0xE59E (keyed 0x0400 (regs [(5, 0x0A)])))) (fun t => t.pc == 0x204) = true ∧
      passes (step (prog 0xE59E (regs [(5, 0x0A)]))) (fun t => t.pc == 0x202) = true := by
  decide

theorem test_t3 : passes (step (prog 0xE59E (keyed 0xFFFF (regs [(5, 0x10)])))) (fun t => t.pc == 0x202) = true := by decide

theorem test_t4_t5 :
    passes (step (prog 0xE5A1 (regs [(5, 0x0A)]))) (fun t => t.pc == 0x204) = true ∧
      passes (step (prog 0xE5A1 (keyed 0x0400 (regs [(5, 0x0A)])))) (fun t => t.pc == 0x202) = true := by
  decide

theorem test_t6 : passes (step (prog 0xE5A1 (keyed 0xFFFF (regs [(5, 0xFF)])))) (fun t => t.pc == 0x204) = true := by decide

theorem test_t7 :
    passes (step (prog 0xF107 (setDt State.reset 5))) (fun t => readV t 1 == 5 && t.dt == 4) = true := by decide

theorem test_t10 :
    passes (step (prog 0xF30A (keyed 0x1088))) (fun t => readV t 3 == 0x0C && t.pc == 0x202) = true := by decide

theorem test_t12 :
    passes (step (prog 0xF30A (setSt (setDt State.reset 2) 1)))
      (fun t => t.pc == 0x200 && t.dt == 1 && t.st == 0 && t.ev.tone && readV t 3 == 0) = true := by
  decide

theorem test_t13 : passes (step (prog 0xF015 (regs [(0, 0x3C)]))) (fun t => t.dt == 0x3B) = true := by decide

theorem test_t15 : passes (step (prog 0xF118 (regs [(1, 2)]))) (fun t => t.st == 1 && !t.ev.tone) = true := by decide

theorem test_t16 : passes (step (prog 0xF118 (regs [(1, 1)]))) (fun t => t.st == 0 && t.ev.tone) = true := by decide

/-! ### The step (L2.1) and the host's operations -/

theorem test_s2 : passes (step State.reset) (fun t => t.ev.unknownOpcode == some 0 && t.pc == 0x200) = true := by decide

theorem test_s10 :
    passes (step (prog 0x0123 (setSt (setDt State.reset 3) 1)))
      (fun t => t.ev.unknownOpcode == some 0x0123 && t.ev.tone && t.dt == 2 && t.st == 0 && t.pc == 0x200) = true := by
  decide

theorem test_s11 :
    passes (step (poke [(0xFFF, 0x12)] (atPc 0x0FFF))) (fun t => t.pc == 0x02F0) = true := by decide

theorem test_s13_s14 :
    passes (step (prog 0x6000)) (fun t => t.ev.redrawPending) = true ∧
      passes (step (prog 0x6000 (hostAckRedraw State.reset))) (fun t => !t.ev.redrawPending) = true := by
  decide

theorem test_rl5 : passes (step (hostLoad [0x60] State.reset).1) (fun t => readV t 0 == 0 && t.pc == 0x202) = true := by decide

theorem test_fetch_word_runs_first :
    passes (step (State.reset.withFetchWord 16 0x7305)) (fun t => readV t 3 == 5 && t.pc == 0x202) = true := by decide

/-! ### Witnesses: the hypotheses of each statement can be met together -/

theorem witness_LoadCopiesOrRefusesWhole :
    3584 < (List.replicate 3585 (0xAA : Byte)).length ∧ (List.replicate 3584 (0xAA : Byte)).length ≤ 3584 ∧
      3583 < (List.replicate 3584 (0xAA : Byte)).length := by
  simp only [List.length_replicate]; decide

theorem witness_SetKeysWritesKeyStates : (hostSetKey 15 true State.reset).keys[15] = true := by decide

theorem witness_FramebufferReadAndRedrawAck : (63 : Nat) < 64 ∧ (31 : Nat) < 32 ∧ 63 + 31 * 64 = 2047 := by decide

theorem witness_StepUsesItsRandomByte : decodeWord (fetch (prog 0xC30F)) = some (.rnd 3 0x0F) ∧ (2 : Reg) ≠ 3 := by decide

theorem witness_SafeState : SafeState (prog 0x6A2B) ∧ SafeState (stacked 16 7) :=
  ⟨⟨by decide, by decide⟩, ⟨by decide, by decide⟩⟩

/-- For HostOperationsKeepInvariant: the Step request in a safe state. -/
theorem witness_HostOperationsKeepInvariant : SafeState (stacked 16 7) ∧ (Request.step 0xAB) ≠ .reset :=
  ⟨⟨by decide, by decide⟩, by decide⟩

theorem witness_EncodeOfDecode : decodeWord 0xDABF = some (.drw 0xA 0xB 0xF) := by decide

/-- For every `DecodesAs` and for DecodeFollowsOpcodeMap and OpcodeRowsDoNotOverlap: each row matches its own match word, and a word
matches no row. -/
theorem witness_opcode_rows :
    (∀ k : Fin 34, opcodeTable[k].mtch &&& opcodeTable[k].mask = opcodeTable[k].mtch) ∧
      ∀ k : Fin 34, (0x0123 : Word) &&& opcodeTable[k].mask ≠ opcodeTable[k].mtch := by
  decide

theorem witness_StepRunsDecodedInstruction :
    decodeWord (fetch (prog 0x1234)) = some (.jp 0x234) ∧
      passes (exec (.jp 0x234) (beginStep (prog 0x1234))) (fun t => t.pc == 0x234) = true := by
  decide

/-- The fault clause of StepRunsDecodedInstruction. -/
theorem witness_StepRunsDecodedInstruction_fault :
    decodeWord (fetch (prog 0x00EE (stacked 17 7))) = some .ret ∧
      exec .ret (beginStep (prog 0x00EE (stacked 17 7))) = .fault .stackSlotAbsent :=
  ⟨by decide, rfl⟩

theorem witness_UnknownOpcodeIsReported : decodeWord (fetch (prog 0x0123)) = none := by decide

/-- For StepEventContents, TimerPassEndsEveryStep, EveryStepKeepsInvariant, StepsLeaveKeysAndKeepRedraw: a step that completes, of a
recognized and of an unrecognized opcode. -/
theorem witness_completed_steps :
    passes (step (prog 0x6A2B)) (fun t => t.redraw) = true ∧ passes (step (prog 0x0123)) (fun t => t.redraw) = true := by
  decide

/-- What each of those two dispatches leaves. -/
theorem witness_DispatchLeaves :
    (∃ u, DispatchLeaves (prog 0x6A2B) u) ∧ ∃ u, DispatchLeaves (prog 0x0123) u :=
  ⟨⟨_, .inl ⟨.ldVxNn 0xA 0x2B, by decide, rfl⟩⟩, ⟨_, .inr ⟨by decide, rfl⟩⟩⟩

theorem witness_EveryStepCompletes : (stacked 16 7).sp.toNat ≤ 16 ∧ State.reset.sp.toNat ≤ 16 := by decide

/-- For StackFaultStepIsReported and the clauses of StepEventContents. -/
theorem witness_StackFaults :
    StackFaults (prog 0x2300 (stacked 16 7)) ∧ StackFaults (prog 0x00EE) ∧ ¬StackFaults (prog 0x0123) := by
  refine ⟨.inl ⟨0x300, by decide, by decide⟩, .inr ⟨by decide, by decide⟩, ?_⟩
  have hd : decodeWord (fetch (prog 0x0123)) = none := by decide
  rintro (⟨n, h, -⟩ | ⟨h, -⟩) <;> cases hd.symm.trans h

/-- For StalledRunOnlyCountsDown: each of the four ways. -/
theorem witness_Stalled :
    Stalled (prog 0x1200) ∧ Stalled (prog 0xF30A) ∧ Stalled (prog 0x0123) ∧ Stalled (prog 0x00EE) :=
  ⟨.inl ⟨0x200, by decide, by decide⟩, .inr (.inl ⟨3, by decide, by decide⟩), .inr (.inr (.inl (by decide))),
    .inr (.inr (.inr witness_StackFaults.2.1))⟩

/-- For DispatchWritesOnlyItsParts and OnlyDestinationRegistersChange: a dispatch that completes and changes a register. -/
theorem witness_register_changes :
    passes (exec (.ldVxNn 0xA 0x2B) State.reset) (fun t => readV t 0xA != readV State.reset 0xA) = true := by
  decide

theorem witness_StepsLeaveKeysAndKeepRedraw : (prog 0x6A2B).redraw = true := by decide

/-- For CallPushesItsAddress and CallThenRetComesBack: the last free slot, and the full stack. -/
theorem witness_CallPushesItsAddress :
    (stacked 15 7).sp.toNat < 16 ∧ 16 ≤ (stacked 16 7).sp.toNat ∧ 16 ≤ (stacked 255 7).sp.toNat := by
  decide

theorem witness_RetReturnsPastTheCall :
    (stacked 1 7).sp.toNat = (0 : Fin 16).val + 1 ∧ (stacked 16 7).sp.toNat = (15 : Fin 16).val + 1 ∧
      State.reset.sp.toNat = 0 := by
  decide

theorem witness_OnlyRetBeyondTheStackFaults :
    16 < (stacked 17 7).sp.toNat ∧ (Instr.cls ≠ .ret ∨ (stacked 17 7).sp.toNat ≤ 16) ∧ (stacked 16 7).sp.toNat ≤ 16 := by
  decide

/-- For ByteSkips: both ways of each. -/
theorem witness_ByteSkips :
    valV (regs [(3, 0x42)]) 3 = (0x42 : Byte).toNat ∧ valV (regs [(3, 0x42)]) 3 ≠ (0x43 : Byte).toNat := by
  decide

/-- For RegisterSkips: both ways of each. -/
theorem witness_RegisterSkips :
    valV (regs [(1, 7)]) 1 = valV (regs [(1, 7)]) 1 ∧ valV (regs [(1, 7)]) 1 ≠ valV (regs [(1, 7)]) 0xF := by
  decide

/-- For every `WritesOnlyV` and `WritesVAndFlag`: a destination other than VF, and a register other than both. -/
theorem witness_other_registers : (14 : Reg) ≠ VF ∧ (0 : Reg) ≠ 14 ∧ (0 : Reg) ≠ VF := by decide

theorem witness_RandomByteIsMasked : (giveRand 0xAB State.reset).randIn = 0xAB :: [] := by decide

/-- For AddToIndexFlagsOverflow: the two sides of 0x0FFF. -/
theorem witness_AddToIndexFlagsOverflow :
    (setI (regs [(2, 1)]) 0x0FFF).i.toNat + valV (setI (regs [(2, 1)]) 0x0FFF) 2 > 0x0FFF ∧
      ¬(setI (regs [(2, 1)]) 0x0FFE).i.toNat + valV (setI (regs [(2, 1)]) 0x0FFE) 2 > 0x0FFF := by
  decide

/-- For DecimalDigitsAreStored: an address outside the three bytes at 0xFFE, just past the wrap and just below. -/
theorem witness_DecimalDigitsAreStored :
    ∀ a ∈ [1, 0xFFD], ∀ j, j < 3 → a % 4096 ≠ indexAddr (setI State.reset 0x0FFE) j := by
  decide

/-- For RegisterBlockIsStored: the last register of the block, and the addresses next to the block. -/
theorem witness_RegisterBlockIsStored :
    (1 : Reg).val ≤ (1 : Reg).val ∧ ∀ a ∈ [0x2FF, 0x302], ∀ j, j < 2 → a % 4096 ≠ indexAddr (setI State.reset 0x300) j := by
  decide

/-- For RegisterBlockIsLoaded: the last register of the block, and the one after it. -/
theorem witness_RegisterBlockIsLoaded : (2 : Reg).val ≤ (2 : Reg).val ∧ (2 : Reg).val < (3 : Reg).val := by decide

theorem witness_ClearScreen : (2047 : Nat) < 2048 := by decide

/-- For DrawXorsTheSprite: the last cell of the framebuffer, covered by a sprite of one row and one bit drawn there. -/
theorem witness_DrawXorsTheSprite :
    (63 : Nat) < 64 ∧ (31 : Nat) < 32 ∧ SpriteCovers (setI (poke [(0x300, 0x80)]) 0x300) 63 31 1 63 31 :=
  ⟨by decide, by decide, 0, 0, by decide, by decide, by decide, rfl, rfl⟩

theorem witness_DrawTwiceRestores :
    (0 : Reg) ≠ VF ∧ (1 : Reg) ≠ VF ∧
      passes (exec (.drw 0 1 1) (setI (poke [(0x300, 0xC0)]) 0x300))
        (fun t => passes (exec (.drw 0 1 1) t) (fun u => u.fb == clearedFramebuffer && readV u VF == 1)) = true := by
  decide

/-- For SecondDrawTakesNewCoordinates: with X = F the first draw moves the coordinate from 5 to 0, and with VF = 0 leaves it. -/
theorem witness_SecondDrawTakesNewCoordinates :
    passes (exec (.drw 0xF 1 1) (setI (poke [(0x300, 0x80)] (regs [(0xF, 5)])) 0x300)) (fun t => valV t VF == 0) = true ∧
      passes (exec (.drw 0xF 1 1) (setI (poke [(0x300, 0x80)]) 0x300))
        (fun t => valV t VF == 0 && valV t 1 == 0 && cellAt t.fb 0) = true := by
  decide

/-- For KeySkips: a pressed key of the last index, and an index with no key. -/
theorem witness_KeySkips :
    (∃ k : Fin 16, k.val = valV (keyed 0xFFFF (regs [(5, 15)])) 5 ∧ (keyed 0xFFFF (regs [(5, 15)])).keys[k] = true) ∧
      ¬∃ k : Fin 16, k.val = valV (keyed 0xFFFF (regs [(5, 16)])) 5 ∧ (keyed 0xFFFF (regs [(5, 16)])).keys[k] = true := by
  decide

/-- For KeyWaitTakesHighestKey: no key, and the highest of three. -/
theorem witness_KeyWaitTakesHighestKey :
    decodeWord (fetch (prog 0xF30A)) = some (.ldVxK 3) ∧ (∀ k : Fin 16, (prog 0xF30A).keys[k] = false) ∧
      (keyed 0x1088).keys[(12 : Fin 16)] = true ∧
      ∀ j : Fin 16, (12 : Fin 16) < j → (keyed 0x1088).keys[j] = false := by
  decide

theorem witness_DelayTimerIsReadBeforeItsTick : decodeWord (fetch (prog 0xF107)) = some (.ldVxDt 1) := by decide

theorem witness_TimerLoads :
    decodeWord (fetch (prog 0xF015)) = some (.ldDtVx 0) ∧ decodeWord (fetch (prog 0xF118)) = some (.ldStVx 1) := by
  decide

end Sys2Proof.Tests
end

section
/-! PROOFS. The host's operations (00_scope.md): what the key, framebuffer and random inputs do, and the invariant that every
operation keeps. The lemmas on `exec` and `step` say for every instruction that it completes and keeps a safe state. -/

namespace Sys2Proof.Machine

variable {s t : State}

/-! ### Completion -/

/-- Only RET beyond the 16 slots stops the machine (assumption 5), and a legal `SP` shuts that out. -/
theorem exec_completes (i : Instr) (hsp : s.sp.toNat ≤ 16) : ∃ t, exec i s = .next t := by
  cases i with
  | ret =>
    by_cases h0 : s.sp.toNat = 0
    · exact ⟨_, execRet_of_empty h0⟩
    · exact ⟨_, execRet_of_occupied ⟨s.sp.toNat - 1, by omega⟩ (by simp only; omega)⟩
  | call nnn =>
    rcases Nat.lt_or_ge s.sp.toNat 16 with h | h
    · exact ⟨_, execCall_of_free nnn h⟩
    · exact ⟨_, execCall_of_full nnn h⟩
  | ldVxK x =>
    rw [exec, execLdVxK]
    split <;> exact ⟨_, rfl⟩
  | _ => exact ⟨_, rfl⟩

theorem step_completes (hsp : s.sp.toNat ≤ 16) : ∃ t, step s = .next t := by
  cases hd : decodeWord (fetch s) with
  | none => exact ⟨_, step_of_unrecognized hd⟩
  | some i =>
    obtain ⟨u, hu⟩ := exec_completes (s := beginStep s) i hsp
    exact ⟨endStep u, by rw [step_of_decode hd, hu, finishStep]⟩

/-! ### The invariant -/

/-- The invariant reads the font, memory and `SP` alone. -/
theorem SafeState.of_eq (h : SafeState s) (hfont : t.font = s.font) (hmem : t.mem = s.mem) (hsp : t.sp = s.sp) :
    SafeState t := by
  rwa [SafeState, hfont, hmem, hsp]

theorem SafeState.after_memWriteList (h : SafeState s) (a : Nat) (bs : List Byte) : SafeState (memWriteList s a bs) :=
  ⟨memWriteList_wf s a bs h.1, by rw [memWriteList_sp]; exact h.2⟩

/-- R27: a call or a return changes `SP` by one, away from the end where it would leave 0 to 16; FX33 and FX55 write memory
through `memWriteList`; no other instruction writes memory or `SP`. -/
theorem SafeState.after_exec {i : Instr} (h : SafeState s) (he : exec i s = .next t) : SafeState t := by
  cases i with
  | ret =>
    obtain ⟨-, rfl⟩ | ⟨j, hj, rfl⟩ := exec_ret_cases he
    · exact h.of_eq rfl rfl rfl
    · refine ⟨h.1, ?_⟩
      have := j.isLt
      simp only [setPc_sp, setSp_sp]; bv_omega
  | call nnn =>
    obtain ⟨-, rfl⟩ | ⟨hfree, rfl⟩ := exec_call_cases he
    · exact h.of_eq rfl rfl rfl
    · refine ⟨by simpa using h.1, ?_⟩
      simp only [setPc_sp, setSp_sp]; bv_omega
  | ldVxK x =>
    obtain ⟨-, rfl⟩ | ⟨k, -, rfl⟩ := exec_ldVxK_cases he
    · exact h
    · exact h.of_eq rfl rfl rfl
  | ldBVx x =>
    cases he
    exact (h.after_memWriteList _ _).of_eq rfl rfl rfl
  | ldMiVx x =>
    cases he
    exact (h.after_memWriteList _ _).of_eq rfl rfl rfl
  | _ =>
    cases he
    exact h.of_eq (by simp) (by simp) (by simp)

theorem SafeState.after_step (h : SafeState s) (hs : step s = .next t) : SafeState t := by
  obtain ⟨i, u, -, hu, rfl⟩ | ⟨-, rfl⟩ := step_cases hs
  · have hb : SafeState (beginStep s) := h.of_eq rfl rfl rfl
    exact (hb.after_exec hu).of_eq (by simp) (by simp) (by simp)
  · exact h.of_eq (by simp) (by simp) (by simp)

theorem safeState_hostReset (s : State) : SafeState (hostReset s) :=
  ⟨Memory.wf_nil s.font, Nat.zero_le 16⟩

theorem SafeState.after_hostLoad (h : SafeState s) (rom : List Byte) : SafeState (hostLoad rom s).1 := by
  rw [hostLoad]
  split
  · exact h
  · exact h.after_memWriteList _ rom

/-! ### The host's Step -/

theorem hostStep_of_decode {i : Instr} (rand : Byte) (h : decodeWord (fetch s) = some i) :
    hostStep rand s = finishStep (exec i (beginStep (giveRand rand s))) :=
  step_of_decode (by rw [fetch_giveRand, h])

theorem transact_step_of_next {rand : Byte} (h : hostStep rand s = .next t) :
    transact (.step rand) s = .next (t, .event t.ev) := by
  rw [transact, h, replyEvent]

/-! ### The frames of the two host writes -/

theorem sameBut_setKeys (s : State) (keys : Vector Bool 16) : SameBut [.keys] s (setKeys s keys) := by
  intro p hp
  cases p with
  | keys => simp at hp
  | _ => simp [Same]

theorem sameBut_setRedraw (s : State) (b : Bool) : SameBut [.redraw] s (setRedraw s b) := by
  intro p hp
  cases p with
  | redraw => simp at hp
  | _ => simp [Same]

/-! ### The framebuffer read -/

theorem hostReadFramebuffer_getElem? (s : State) {x y : Nat} (hx : x < 64) (hy : y < 32) :
    (hostReadFramebuffer s)[x + y * 64]? = some (pixelAt s.fb x y) := by
  have hk : x + y * 64 < 2048 := by omega
  simp [hostReadFramebuffer, hk, cellAt_eq s.fb hx]

end Sys2Proof.Machine

namespace Sys2Proof.Proofs

open Sys2Proof Sys2Proof.Machine Sys2Proof.Claims

/-- Settles O6: a request is accepted because `SP` is legal, and each operation keeps the invariant. -/
theorem hostOperationsKeepInvariant : Obligations.HostOperationsKeepInvariant := by
  intro q s h
  cases q with
  | reset => exact ⟨_, _, rfl, safeState_hostReset s⟩
  | load rom => exact ⟨_, _, rfl, h.after_hostLoad rom⟩
  | step rand =>
    have hg : SafeState (giveRand rand s) := h.of_eq rfl rfl rfl
    obtain ⟨t, ht⟩ := step_completes hg.2
    exact ⟨t, _, transact_step_of_next ht, hg.after_step ht⟩
  | setKeys k => exact ⟨_, _, rfl, h.of_eq rfl rfl rfl⟩
  | setKey i pressed => exact ⟨_, _, rfl, h.of_eq rfl rfl rfl⟩
  | ackRedraw => exact ⟨_, _, rfl, h.of_eq rfl rfl rfl⟩
  | readFramebuffer => exact ⟨_, _, rfl, h⟩

/-- Settles O3: both operations are `setKeys`, so what is left is an element of the vector they write (R13). -/
theorem setKeysWritesKeyStates : Obligations.SetKeysWritesKeyStates := by
  refine ⟨fun k s => ⟨fun i => ?_, sameBut_setKeys s _⟩, fun i b s => ⟨fun j => ?_, sameBut_setKeys s _⟩⟩
  · simp [hostSetKeys]
  · simp [hostSetKey, Vector.getElem_set, Fin.ext_iff, eq_comm]

/-- Settles O4: R32's row-major index names the cell that R14 returns, and AckRedraw is a `setRedraw`. -/
theorem framebufferReadAndRedrawAck : Obligations.FramebufferReadAndRedrawAck := by
  intro s
  refine ⟨fun x y hx hy => hostReadFramebuffer_getElem? s hx hy, ?_, rfl, rfl, sameBut_setRedraw s false⟩
  simp [hostReadFramebuffer]

/-- Settles O5: the step dispatches CXNN with `rand` in front of the random bytes, and `endStep` drops that byte again. -/
theorem stepUsesItsRandomByte : Obligations.StepUsesItsRandomByte := by
  intro rand s x nn hd
  have hs : hostStep rand s = .next (endStep (pcNext (writeV (beginStep (giveRand rand s)) x (rand &&& nn)))) :=
    hostStep_of_decode rand hd
  refine ⟨_, hs, ?_, fun r hr => ?_, ?_, transact_step_of_next hs⟩
  · simp
  · simp [hr]
  · simp

end Sys2Proof.Proofs
end

section
/-! PROOFS. The state (10_state.md): what the dispatch of each instruction leaves unchanged, built from the frames of the state's
operations, and what follows from it for the general registers, the keys and the redraw flag; the invariant of every step; the
state after Reset. -/

namespace Sys2Proof.Machine

open Sys2Proof.Claims

variable {s t u : State} {l l' : List Part}

/-! ### Frames compose -/

theorem SameBut.refl (l : List Part) (s : State) : SameBut l s s := by
  intro p _
  cases p <;> simp [Same]

theorem Same.trans {p : Part} (h : Same s t p) (h' : Same t u p) : Same s u p := by
  cases p with
  | v => exact fun r => (h' r).trans (h r)
  | mem => exact fun a => (h' a).trans (h a)
  | fb => exact fun x y => (h' x y).trans (h x y)
  | inputs => exact ⟨h'.1.trans h.1, h'.2.trans h.2⟩
  | _ => exact Eq.trans h' h

/-- Of two writes after each other, the second one's parts stand first. -/
theorem SameBut.trans (h : SameBut l s t) (h' : SameBut l' t u) : SameBut (l' ++ l) s u := by
  intro p hp
  rw [List.mem_append, not_or] at hp
  exact (h p hp.2).trans (h' p hp.1)

theorem SameBut.mono (h : SameBut l s t) (hl : l ⊆ l') : SameBut l' s t :=
  fun p hp => h p fun hm => hp (hl hm)

/-! ### The frame of each operation on the state: every part but the one it writes is as before, by the laws of State.lean -/

theorem sameBut_setPc (s : State) (w : Word) : SameBut [.pc] s (setPc s w) := by
  intro p hp
  cases p <;> simp [Same] at hp ⊢

theorem sameBut_skipIf (c : Bool) (s : State) : SameBut [.pc] s (skipIf c s) := by
  cases c <;> exact sameBut_setPc s _

/-- The policy `next` after a dispatch's other writes. -/
theorem SameBut.pcNext (h : SameBut l s t) : SameBut (.pc :: l) s (pcNext t) := h.trans (sameBut_setPc t _)

theorem sameBut_writeV (s : State) (r : Reg) (b : Byte) : SameBut [.v] s (writeV s r b) := by
  intro p hp
  cases p <;> simp [Same] at hp ⊢

theorem sameBut_writeResultAndFlag (s : State) (x : Reg) (result flag : Byte) :
    SameBut [.v] s (writeResultAndFlag s x result flag) :=
  ((sameBut_writeV s x result).trans (sameBut_writeV _ VF flag)).mono (by simp)

theorem sameBut_loadRegs (s : State) (a : Nat) (rs : List Reg) : SameBut [.v] s (loadRegs s a rs) := by
  intro p hp
  cases p <;> simp [Same] at hp ⊢

theorem sameBut_setI (s : State) (w : Word) : SameBut [.i] s (setI s w) := by
  intro p hp
  cases p <;> simp [Same] at hp ⊢

theorem sameBut_setDt (s : State) (b : Byte) : SameBut [.dt] s (setDt s b) := by
  intro p hp
  cases p <;> simp [Same] at hp ⊢

theorem sameBut_setSt (s : State) (b : Byte) : SameBut [.st] s (setSt s b) := by
  intro p hp
  cases p <;> simp [Same] at hp ⊢

theorem sameBut_setSp (s : State) (b : Byte) : SameBut [.sp] s (setSp s b) := by
  intro p hp
  cases p <;> simp [Same] at hp ⊢

theorem sameBut_writeStack (s : State) (j : Nat) (w : Word) : SameBut [.stack] s (writeStack s j w) := by
  intro p hp
  cases p <;> simp [Same] at hp ⊢

theorem sameBut_memWriteList (s : State) (a : Nat) (bs : List Byte) : SameBut [.mem] s (memWriteList s a bs) := by
  intro p hp
  cases p <;> simp [Same] at hp ⊢

theorem sameBut_setFb (s : State) (fb : Framebuffer) : SameBut [.fb] s (setFb s fb) := by
  intro p hp
  cases p <;> simp [Same] at hp ⊢

theorem sameBut_raiseAnomaly (a : Anomaly) (s : State) : SameBut [.ev] s (raiseAnomaly a s) := by
  intro p hp
  cases p <;> simp [Same] at hp ⊢

/-! ### The frame of the dispatch -/

/-- R37: each dispatch is a short chain of operations, so its frame is the chain of their frames. -/
theorem exec_sameBut {i : Instr} (he : exec i s = .next t) : SameBut (mayWrite i) s t := by
  cases i with
  | cls =>
    cases he
    exact ((sameBut_setFb s _).trans (sameBut_setRedraw _ true)).pcNext.mono (by simp [mayWrite])
  | ret =>
    obtain ⟨-, rfl⟩ | ⟨j, -, rfl⟩ := exec_ret_cases he
    · exact (sameBut_raiseAnomaly _ s).mono (by simp [mayWrite])
    · exact ((sameBut_setSp s _).trans (sameBut_setPc _ _)).mono (by simp [mayWrite])
  | call nnn =>
    obtain ⟨-, rfl⟩ | ⟨-, rfl⟩ := exec_call_cases he
    · exact (sameBut_raiseAnomaly _ s).mono (by simp [mayWrite])
    · exact (((sameBut_writeStack s _ _).trans (sameBut_setSp _ _)).trans (sameBut_setPc _ _)).mono (by simp [mayWrite])
  | ldVxK x =>
    obtain ⟨-, rfl⟩ | ⟨k, -, rfl⟩ := exec_ldVxK_cases he
    · exact .refl _ t
    · exact (sameBut_writeV s x _).pcNext
  | jp | jpV0 =>
    cases he
    exact sameBut_setPc s _
  | seVxNn | sneVxNn | seVxVy | sneVxVy | skp | sknp =>
    cases he
    exact sameBut_skipIf _ s
  | ldVxNn | addVxNn | ldVxVy | or | and | xor | rnd | ldVxDt =>
    cases he
    exact (sameBut_writeV s _ _).pcNext
  | addVxVy | sub | shr | subn | shl =>
    cases he
    exact (sameBut_writeResultAndFlag s _ _ _).pcNext
  | ldINnn | ldFVx =>
    cases he
    exact (sameBut_setI s _).pcNext
  | addIVx x =>
    cases he
    exact ((sameBut_setI s _).trans (sameBut_writeV _ VF _)).pcNext
  | drw x y n =>
    cases he
    exact (((sameBut_setFb s _).trans (sameBut_writeV _ VF _)).trans (sameBut_setRedraw _ true)).pcNext.mono
      (by simp [mayWrite])
  | ldDtVx x =>
    cases he
    exact (sameBut_setDt s _).pcNext
  | ldStVx x =>
    cases he
    exact (sameBut_setSt s _).pcNext
  | ldBVx x =>
    cases he
    exact (sameBut_memWriteList s _ _).pcNext
  | ldMiVx x =>
    cases he
    exact ((sameBut_memWriteList s _ _).trans (sameBut_setI _ _)).pcNext.mono (by simp [mayWrite])
  | ldVxMi x =>
    cases he
    exact ((sameBut_loadRegs s _ _).trans (sameBut_setI _ _)).pcNext.mono (by simp [mayWrite])

/-! ### What follows for one part of the state -/

/-- R21: a register that is no destination keeps its value. The instructions without a destination do not have V among the parts
that they may write. -/
theorem readV_exec_of_not_destRegs {i : Instr} {r : Reg} (he : exec i s = .next t) (hr : ¬destRegs i r) :
    readV t r = readV s r := by
  cases i with
  | ldVxNn | addVxNn | ldVxVy | or | and | xor | rnd | ldVxDt | drw | addIVx =>
    cases he
    rw [destRegs] at hr
    simp [hr]
  | addVxVy | sub | shr | subn | shl =>
    cases he
    rw [destRegs, not_or] at hr
    simp [hr]
  | ldVxK x =>
    rw [destRegs] at hr
    obtain ⟨-, rfl⟩ | ⟨k, -, rfl⟩ := exec_ldVxK_cases he
    · rfl
    · simp [hr]
  | ldVxMi x =>
    cases he
    rw [destRegs] at hr
    simp [readV_loadRegs, mem_blockRegs, hr]
  | _ => exact exec_sameBut he .v (by simp [mayWrite]) r

theorem keys_notMem_mayWrite (i : Instr) : .keys ∉ mayWrite i := by
  cases i <;> simp [mayWrite]

theorem font_notMem_mayWrite (i : Instr) : .font ∉ mayWrite i := by
  cases i <;> simp [mayWrite]

/-- R33: the two display instructions set `REDRAW`, and no other writes it. -/
theorem exec_keeps_redraw {i : Instr} (he : exec i s = .next t) (h : s.redraw = true) : t.redraw = true := by
  cases i with
  | cls | drw =>
    cases he
    rfl
  | _ =>
    have hsame : t.redraw = s.redraw := exec_sameBut he .redraw (by simp [mayWrite])
    rw [hsame, h]

/-! ### Completion -/

/-- No instruction but RET has a path that stops, whatever `SP` is (assumption 5). -/
theorem exec_completes_of_ne_ret {i : Instr} (hi : i ≠ .ret) (s : State) : ∃ t, exec i s = .next t := by
  cases i with
  | ret => exact absurd rfl hi
  | call nnn =>
    rcases Nat.lt_or_ge s.sp.toNat 16 with h | h
    · exact ⟨_, execCall_of_free nnn h⟩
    · exact ⟨_, execCall_of_full nnn h⟩
  | ldVxK x =>
    rw [exec, execLdVxK]
    split <;> exact ⟨_, rfl⟩
  | _ => exact ⟨_, rfl⟩

/-! ### The state after Reset -/

theorem memRead_hostReset (s : State) {a : Nat} (ha : a < 4096) :
    memRead (hostReset s) a = Memory.resetImage s.font a := by
  rw [memRead, Config.memSize, Nat.mod_eq_of_lt ha]
  rfl

theorem hasResetValues_hostReset (s : State) : HasResetValues s.font (hostReset s) := by
  refine ⟨rfl, fun a ha => ?_, fun a hlo hhi => ?_, fun r => ?_, rfl, rfl, rfl, fun j => ?_, rfl, rfl, fun k => ?_,
    fun c _ => ?_, rfl⟩
  · rw [memRead_hostReset s (by omega), Memory.resetImage, dif_pos ha]
  · rw [memRead_hostReset s hhi, Memory.resetImage, dif_neg (by omega)]
  · exact Vector.getElem_replicate r.isLt
  · exact Vector.getElem_replicate j.isLt
  · exact Vector.getElem_replicate k.isLt
  · exact pixelAt_clearedFramebuffer _ _

theorem hostReset_reset : hostReset State.reset = State.reset := rfl

end Sys2Proof.Machine

namespace Sys2Proof.Proofs

open Sys2Proof Sys2Proof.Machine Sys2Proof.Claims

/-- Settles O22: the dispatch keeps a safe state, and the other phases of a step write neither memory nor `SP`. -/
theorem everyStepKeepsInvariant : Obligations.EveryStepKeepsInvariant :=
  fun _ _ h hs => h.after_step hs

/-- Settles O26, from the frames of the operations that each dispatch is made of. -/
theorem dispatchWritesOnlyItsParts : Obligations.DispatchWritesOnlyItsParts :=
  fun _ _ _ he => exec_sameBut he

/-- Settles O27: the contrapositive, a register that is no destination is read as before. -/
theorem onlyDestinationRegistersChange : Obligations.OnlyDestinationRegistersChange := by
  intro i s t r he hne
  by_contra hr
  exact hne (readV_exec_of_not_destRegs he hr)

/-- Settles O28: the keys and the font are in no instruction's list of parts, and the phases around the dispatch keep all three. -/
theorem stepsLeaveKeysAndKeepRedraw : Obligations.StepsLeaveKeysAndKeepRedraw := by
  intro s t hs
  obtain ⟨i, u, -, hu, rfl⟩ | ⟨-, rfl⟩ := step_cases hs
  · have hframe := exec_sameBut hu
    rw [endStep_keys, endStep_font, endStep_redraw]
    exact ⟨hframe .keys (keys_notMem_mayWrite i), hframe .font (font_notMem_mayWrite i), fun h => exec_keeps_redraw hu h⟩
  · simp

/-- Settles O32: RET has its slot exactly up to `SP` 16, and the other instructions need none. -/
theorem onlyRetBeyondTheStackFaults : Obligations.OnlyRetBeyondTheStackFaults := by
  refine ⟨fun s h => execRet_of_beyond h, fun i s h => ?_⟩
  rcases h with hi | hsp
  · exact exec_completes_of_ne_ret hi s
  · exact exec_completes i hsp

/-- Settles O23: `State.reset` is what the host's Reset leaves of it, so it has what every Reset gives. -/
theorem resetMeetsInvariant : Obligations.ResetMeetsInvariant := by
  rw [Obligations.ResetMeetsInvariant, ← hostReset_reset]
  exact ⟨safeState_hostReset _, hasResetValues_hostReset _⟩

end Sys2Proof.Proofs
end

section
/-! PROOFS. The byte memory (20_memory.md): the frame of a byte write, and the two bytes that the fetch takes from memory, so that
what was stored there is what is fetched. -/

namespace Sys2Proof.Machine

variable (s : State)

/-! ### The frames of the memory writes -/

theorem sameBut_memWrite (a : Nat) (b : Byte) : SameBut [.mem] s (memWrite s a b) :=
  sameBut_memWriteList s a [b]

theorem sameBut_storeOpcode (op : Word) : SameBut [.mem] s (storeOpcode s op) :=
  sameBut_memWriteList s s.pc.toNat [highByte op, lowByte op]

/-! ### The bytes of the fetch -/

@[simp] theorem highByte_fetch : highByte (fetch s) = memRead s s.pc.toNat := by
  rw [fetch, highByte_wordOfBytes]

@[simp] theorem lowByte_fetch : lowByte (fetch s) = memRead s (s.pc.toNat + 1) := by
  rw [fetch, lowByte_wordOfBytes]

/-- The low byte, written second, does not land on the high one: consecutive addresses differ mod 4096. -/
theorem fetch_storeOpcode (op : Word) : fetch (storeOpcode s op) = op := by
  have hne : s.pc.toNat % 4096 ≠ (s.pc.toNat + 1) % 4096 := by omega
  have hhigh : memRead (storeOpcode s op) s.pc.toNat = highByte op := by
    rw [storeOpcode, memRead_memWrite, if_neg hne, memRead_memWrite, if_pos rfl]
  have hlow : memRead (storeOpcode s op) (s.pc.toNat + 1) = lowByte op := by
    rw [storeOpcode, memRead_memWrite, if_pos rfl]
  have hpc : (storeOpcode s op).pc = s.pc := rfl
  rw [fetch, hpc, hhigh, hlow, wordOfBytes_high_low]

/-- With all 16 bits given, the stored opcode is the whole word. -/
theorem withFetchWord_toNat (op : Word) : s.withFetchWord 16 op.toNat = storeOpcode s op := by
  rw [State.withFetchWord, Nat.mod_eq_of_lt op.isLt, BitVec.ofNat_toNat, BitVec.setWidth_eq]

end Sys2Proof.Machine

namespace Sys2Proof.Proofs

open Sys2Proof Sys2Proof.Machine Sys2Proof.Claims

/-- Settles O7, from the laws of a byte read and the frame of a byte write. -/
theorem memoryReadsBackWrites : Obligations.MemoryReadsBackWrites :=
  fun s a b v => ⟨(memRead_mod s a).symm, memRead_memWrite s a b v, sameBut_memWrite s a v⟩

/-- Settles O8: each half of the opcode is one byte read at `PC`, which the write leaves as it was. -/
theorem fetchSeesStoredBytes : Obligations.FetchSeesStoredBytes := by
  refine ⟨fun s a v => ⟨?_, ?_⟩, fun s op => ?_⟩
  · rw [highByte_fetch, highByte_fetch, memWrite_pc, memRead_memWrite]
  · rw [lowByte_fetch, lowByte_fetch, memWrite_pc, memRead_memWrite]
  · rw [withFetchWord_toNat]
    exact ⟨fetch_storeOpcode s op, sameBut_storeOpcode s op⟩

end Sys2Proof.Proofs
end

section
/-! PROOFS. The encoding (30_encoding.md): the decoder of R74 and R93, the encoder of R82 and the opcode map of R80 say the same. An
opcode is put together from its fields, an encoded instruction is taken apart into its operands, and every case of the decoder,
the encoder and the map is one of the word shapes of R82. -/

namespace Sys2Proof

variable {op m : Word} {i : Instr}

/-! ### The masked opcode, put together from the fields that the mask keeps -/

theorem toNat_append_eq_add {v w : Nat} (a : BitVec v) (b : BitVec w) : (a ++ b).toNat = a.toNat * 2 ^ w + b.toNat := by
  rw [BitVec.toNat_append, ← Nat.shiftLeft_add_eq_or_of_lt b.isLt, Nat.shiftLeft_eq]

theorem and_F000_eq_fields (op : Word) : op &&& 0xF000#16 = fieldF op ++ 0#12 := by
  apply BitVec.eq_of_toNat_eq
  rw [toNat_and_F000, toNat_append_eq_add, toNat_fieldF, BitVec.toNat_zero]
  omega

theorem and_F00F_eq_fields (op : Word) : op &&& 0xF00F#16 = fieldF op ++ 0#8 ++ fieldN op := by
  apply BitVec.eq_of_toNat_eq
  rw [toNat_and_F00F, toNat_append_eq_add, toNat_append_eq_add, toNat_fieldF, toNat_fieldN, BitVec.toNat_zero]
  omega

theorem and_F0FF_eq_fields (op : Word) : op &&& 0xF0FF#16 = fieldF op ++ 0#4 ++ fieldNN op := by
  apply BitVec.eq_of_toNat_eq
  rw [toNat_and_F0FF, toNat_append_eq_add, toNat_append_eq_add, toNat_fieldF, toNat_fieldNN, BitVec.toNat_zero]
  omega

theorem and_FFFF_eq_fields (op : Word) : op &&& 0xFFFF#16 = fieldF op ++ fieldNNN op := by
  apply BitVec.eq_of_toNat_eq
  rw [and_FFFF, toNat_append_eq_add, toNat_fieldF, toNat_fieldNNN]
  omega

/-! ### The word shapes of R82: an opcode whose fixed bits are those of a row is the encoding of its own fields -/

theorem eq_of_and_FFFF (h : op &&& 0xFFFF#16 = m) : m = op := by
  rw [← h, and_FFFF]

theorem encodeNNN_fields (h : op &&& 0xF000#16 = m) : encodeNNN m (fieldNNN op) = op := by
  subst h
  apply BitVec.eq_of_toNat_eq
  rw [toNat_encodeNNN _ _ (by rw [toNat_and_F000]; omega), toNat_and_F000, toNat_fieldNNN]
  omega

theorem encodeXNN_fields (h : op &&& 0xF000#16 = m) : encodeXNN m (fieldX op) (fieldNN op) = op := by
  subst h
  apply BitVec.eq_of_toNat_eq
  rw [toNat_encodeXNN _ _ _ (by rw [toNat_and_F000]; omega), toNat_and_F000, val_fieldX, toNat_fieldNN]
  omega

theorem encodeXYN_fields (h : op &&& 0xF000#16 = m) : encodeXYN m (fieldX op) (fieldY op) (fieldRows op) = op := by
  subst h
  apply BitVec.eq_of_toNat_eq
  rw [toNat_encodeXYN _ _ _ _ (by rw [toNat_and_F000]; omega), toNat_and_F000, val_fieldX, val_fieldY, val_fieldRows]
  omega

/-- The shape of groups 5, 8 and 9, whose `N` is no operand but a key: the sum of `m` and `n` is the row's match. -/
theorem encodeXYN_fields_of_key {n : Fin 16} (hm : m.toNat % 4096 = 0) (h : op &&& 0xF00F#16 = m + BitVec.ofNat 16 n.val) :
    encodeXYN m (fieldX op) (fieldY op) n = op := by
  have hkey : op.toNat / 4096 * 4096 + op.toNat % 16 = m.toNat + n.val := by
    rw [← toNat_and_F00F, h, BitVec.toNat_add, BitVec.toNat_ofNat]
    have := m.isLt
    omega
  apply BitVec.eq_of_toNat_eq
  rw [toNat_encodeXYN _ _ _ _ hm, val_fieldX, val_fieldY]
  omega

theorem encodeX_fields (h : op &&& 0xF0FF#16 = m) : encodeX m (fieldX op) = op := by
  subst h
  apply BitVec.eq_of_toNat_eq
  rw [toNat_encodeX _ _ (by rw [toNat_and_F0FF]; omega), toNat_and_F0FF, val_fieldX]
  omega

/-! ### The fields of an encoded instruction -/

section
variable {nnn : Addr12} {nn : Byte} {x y n : Fin 16}

theorem fieldF_encodeNNN (hm : m.toNat % 4096 = 0) : fieldF (encodeNNN m nnn) = fieldF m := by
  rw [fieldF_eq_iff, toNat_encodeNNN m nnn hm, toNat_fieldF]; omega

theorem fieldNNN_encodeNNN (hm : m.toNat % 4096 = 0) : fieldNNN (encodeNNN m nnn) = nnn := by
  rw [fieldNNN_eq_iff, toNat_encodeNNN m nnn hm]; omega

theorem fieldF_encodeXNN (hm : m.toNat % 4096 = 0) : fieldF (encodeXNN m x nn) = fieldF m := by
  rw [fieldF_eq_iff, toNat_encodeXNN m x nn hm, toNat_fieldF]; omega

theorem fieldX_encodeXNN (hm : m.toNat % 4096 = 0) : fieldX (encodeXNN m x nn) = x := by
  rw [Fin.ext_iff, val_fieldX, toNat_encodeXNN m x nn hm]; omega

theorem fieldNN_encodeXNN (hm : m.toNat % 4096 = 0) : fieldNN (encodeXNN m x nn) = nn := by
  rw [fieldNN_eq_iff, toNat_encodeXNN m x nn hm]; omega

theorem fieldF_encodeXYN (hm : m.toNat % 4096 = 0) : fieldF (encodeXYN m x y n) = fieldF m := by
  rw [fieldF_eq_iff, toNat_encodeXYN m x y n hm, toNat_fieldF]; omega

theorem fieldX_encodeXYN (hm : m.toNat % 4096 = 0) : fieldX (encodeXYN m x y n) = x := by
  rw [Fin.ext_iff, val_fieldX, toNat_encodeXYN m x y n hm]; omega

theorem fieldY_encodeXYN (hm : m.toNat % 4096 = 0) : fieldY (encodeXYN m x y n) = y := by
  rw [Fin.ext_iff, val_fieldY, toNat_encodeXYN m x y n hm]; omega

theorem fieldRows_encodeXYN (hm : m.toNat % 4096 = 0) : fieldRows (encodeXYN m x y n) = n := by
  rw [Fin.ext_iff, val_fieldRows, toNat_encodeXYN m x y n hm]; omega

theorem fieldN_encodeXYN (hm : m.toNat % 4096 = 0) : fieldN (encodeXYN m x y n) = BitVec.ofFin n :=
  congrArg BitVec.ofFin (fieldRows_encodeXYN hm)

theorem fieldF_encodeX (hm : m.toNat / 256 % 16 = 0) : fieldF (encodeX m x) = fieldF m := by
  rw [fieldF_eq_iff, toNat_encodeX m x hm, toNat_fieldF]; omega

theorem fieldX_encodeX (hm : m.toNat / 256 % 16 = 0) : fieldX (encodeX m x) = x := by
  rw [Fin.ext_iff, val_fieldX, toNat_encodeX m x hm]; omega

theorem fieldNN_encodeX (hm : m.toNat / 256 % 16 = 0) : fieldNN (encodeX m x) = fieldNN m := by
  rw [fieldNN_eq_iff, toNat_encodeX m x hm, toNat_fieldNN]; omega

end

/-! ### Decode of encode -/

/-- The cases are grouped by word shape: the encoder's fields are the keys that select the decoder's branch, and its operands. -/
theorem decodeWord_encode (i : Instr) : decodeWord (encode i) = some i := by
  cases i with
  | cls | ret => decide
  | jp | call | ldINnn | jpV0 => rw [encode, decodeWord, fieldF_encodeNNN, fieldNNN_encodeNNN] <;> rfl
  | seVxNn | sneVxNn | ldVxNn | addVxNn | rnd =>
    rw [encode, decodeWord, fieldF_encodeXNN, fieldX_encodeXNN, fieldNN_encodeXNN] <;> rfl
  | drw =>
    rw [encode, decodeWord, fieldF_encodeXYN, fieldX_encodeXYN, fieldY_encodeXYN, fieldRows_encodeXYN] <;> rfl
  | seVxVy | ldVxVy | or | and | xor | addVxVy | sub | shr | subn | shl | sneVxVy =>
    rw [encode, decodeWord, decodeGroup8, fieldF_encodeXYN, fieldN_encodeXYN, fieldX_encodeXYN, fieldY_encodeXYN] <;> rfl
  | skp | sknp | ldVxDt | ldVxK | ldDtVx | ldStVx | addIVx | ldFVx | ldBVx | ldMiVx | ldVxMi =>
    rw [encode, decodeWord, decodeGroupE, decodeGroupF, fieldF_encodeX, fieldX_encodeX, fieldNN_encodeX] <;> rfl

theorem decode_encodeBytes (i : Instr) (rest : List Byte) : decode (encodeBytes i ++ rest) = .ok (i, rest) := by
  simp [encodeBytes, decode, decodeWord_encode]

/-! ### Encode of decode: the keys that select a branch of the decoder are the fixed bits of its word shape -/

theorem encode_of_decodeGroup0 (hF : fieldF op = 0x0) (h : decodeGroup0 op = some i) : encode i = op := by
  unfold decodeGroup0 at h
  split_ifs at h with hNNN hNNN <;> cases h <;> exact eq_of_and_FFFF (by rw [and_FFFF_eq_fields, hF, hNNN]; rfl)

theorem encode_of_decodeGroup8 (hF : fieldF op = 0x8) (h : decodeGroup8 op = some i) : encode i = op := by
  unfold decodeGroup8 at h
  split_ifs at h with hN hN hN hN hN hN hN hN hN <;> cases h <;>
    exact encodeXYN_fields_of_key rfl (by rw [and_F00F_eq_fields, hF, hN]; rfl)

theorem encode_of_decodeGroupE (hF : fieldF op = 0xE) (h : decodeGroupE op = some i) : encode i = op := by
  unfold decodeGroupE at h
  split_ifs at h with hNN hNN <;> cases h <;> exact encodeX_fields (by rw [and_F0FF_eq_fields, hF, hNN]; rfl)

theorem encode_of_decodeGroupF (hF : fieldF op = 0xF) (h : decodeGroupF op = some i) : encode i = op := by
  unfold decodeGroupF at h
  split_ifs at h with hNN hNN hNN hNN hNN hNN hNN hNN hNN <;> cases h <;>
    exact encodeX_fields (by rw [and_F0FF_eq_fields, hF, hNN]; rfl)

theorem exists_fieldF_eq (op : Word) : ∃ k : Fin 16, fieldF op = BitVec.ofFin k := ⟨(fieldF op).toFin, rfl⟩

theorem encode_of_decodeWord (h : decodeWord op = some i) : encode i = op := by
  obtain ⟨k, hF⟩ := exists_fieldF_eq op
  rw [decodeWord, hF] at h
  match k, hF, h with
  | 0x0, hF, h => exact encode_of_decodeGroup0 hF h
  | 0x8, hF, h => exact encode_of_decodeGroup8 hF h
  | 0xE, hF, h => exact encode_of_decodeGroupE hF h
  | 0xF, hF, h => exact encode_of_decodeGroupF hF h
  | 0x1, hF, h | 0x2, hF, h | 0xA, hF, h | 0xB, hF, h =>
    cases h
    exact encodeNNN_fields (by rw [and_F000_eq_fields, hF]; rfl)
  | 0x3, hF, h | 0x4, hF, h | 0x6, hF, h | 0x7, hF, h | 0xC, hF, h =>
    cases h
    exact encodeXNN_fields (by rw [and_F000_eq_fields, hF]; rfl)
  | 0x5, hF, h | 0x9, hF, h =>
    obtain ⟨hN, h⟩ := Option.ite_none_right_eq_some.1 h
    cases h
    exact encodeXYN_fields_of_key rfl (by rw [and_F00F_eq_fields, hF, hN]; rfl)
  | 0xD, hF, h =>
    cases h
    exact encodeXYN_fields (by rw [and_F000_eq_fields, hF]; rfl)
  | ⟨n + 16, hk⟩, _, _ => exact absurd hk (by omega)

/-! ### The rows of the opcode map (R80) -/

/-- The instruction that an opcode of row `k` spells: the row's mnemonic, with the fields of the opcode as its operands. -/
def instrOfRow : Fin 34 → Word → Instr
  | 0, _ => .cls
  | 1, _ => .ret
  | 2, op => .jp (fieldNNN op)
  | 3, op => .call (fieldNNN op)
  | 4, op => .seVxNn (fieldX op) (fieldNN op)
  | 5, op => .sneVxNn (fieldX op) (fieldNN op)
  | 6, op => .seVxVy (fieldX op) (fieldY op)
  | 7, op => .ldVxNn (fieldX op) (fieldNN op)
  | 8, op => .addVxNn (fieldX op) (fieldNN op)
  | 9, op => .ldVxVy (fieldX op) (fieldY op)
  | 10, op => .or (fieldX op) (fieldY op)
  | 11, op => .and (fieldX op) (fieldY op)
  | 12, op => .xor (fieldX op) (fieldY op)
  | 13, op => .addVxVy (fieldX op) (fieldY op)
  | 14, op => .sub (fieldX op) (fieldY op)
  | 15, op => .shr (fieldX op) (fieldY op)
  | 16, op => .subn (fieldX op) (fieldY op)
  | 17, op => .shl (fieldX op) (fieldY op)
  | 18, op => .sneVxVy (fieldX op) (fieldY op)
  | 19, op => .ldINnn (fieldNNN op)
  | 20, op => .jpV0 (fieldNNN op)
  | 21, op => .rnd (fieldX op) (fieldNN op)
  | 22, op => .drw (fieldX op) (fieldY op) (fieldRows op)
  | 23, op => .skp (fieldX op)
  | 24, op => .sknp (fieldX op)
  | 25, op => .ldVxDt (fieldX op)
  | 26, op => .ldVxK (fieldX op)
  | 27, op => .ldDtVx (fieldX op)
  | 28, op => .ldStVx (fieldX op)
  | 29, op => .addIVx (fieldX op)
  | 30, op => .ldFVx (fieldX op)
  | 31, op => .ldBVx (fieldX op)
  | 32, op => .ldMiVx (fieldX op)
  | 33, op => .ldVxMi (fieldX op)
  | ⟨n + 34, hk⟩, _ => absurd hk (by omega)

theorem rowIndex_instrOfRow (k : Fin 34) (op : Word) : (instrOfRow k op).rowIndex = k := by
  fin_cases k <;> rfl

theorem encode_instrOfRow :
    ∀ k : Fin 34, op &&& opcodeTable[k].mask = opcodeTable[k].mtch → encode (instrOfRow k op) = op
  | 0, h | 1, h => eq_of_and_FFFF h
  | 2, h | 3, h | 19, h | 20, h => encodeNNN_fields h
  | 4, h | 5, h | 7, h | 8, h | 21, h => encodeXNN_fields h
  | 6, h | 9, h | 10, h | 11, h | 12, h | 13, h | 14, h | 15, h | 16, h | 17, h | 18, h => encodeXYN_fields_of_key rfl h
  | 22, h => encodeXYN_fields h
  | 23, h | 24, h | 25, h | 26, h | 27, h | 28, h | 29, h | 30, h | 31, h | 32, h | 33, h => encodeX_fields h
  | ⟨n + 34, hk⟩, _ => absurd hk (by omega)

/-- R75, for every row: with `k` a numeral this is the `DecodesAs` of that row. -/
theorem decodesAs_instrOfRow (k : Fin 34) : Claims.DecodesAs opcodeTable[k].mask opcodeTable[k].mtch (instrOfRow k) := by
  intro op h
  rw [← decodeWord_encode, encode_instrOfRow k h]

theorem encode_matches_row : ∀ i : Instr, Laws.EncodeRow.Statement i
  | .cls => Laws.EncodeRow.cls
  | .ret => Laws.EncodeRow.ret
  | .jp nnn => Laws.EncodeRow.jp nnn
  | .call nnn => Laws.EncodeRow.call nnn
  | .seVxNn x nn => Laws.EncodeRow.seVxNn x nn
  | .sneVxNn x nn => Laws.EncodeRow.sneVxNn x nn
  | .seVxVy x y => Laws.EncodeRow.seVxVy x y
  | .ldVxNn x nn => Laws.EncodeRow.ldVxNn x nn
  | .addVxNn x nn => Laws.EncodeRow.addVxNn x nn
  | .ldVxVy x y => Laws.EncodeRow.ldVxVy x y
  | .or x y => Laws.EncodeRow.or x y
  | .and x y => Laws.EncodeRow.and x y
  | .xor x y => Laws.EncodeRow.xor x y
  | .addVxVy x y => Laws.EncodeRow.addVxVy x y
  | .sub x y => Laws.EncodeRow.sub x y
  | .shr x y => Laws.EncodeRow.shr x y
  | .subn x y => Laws.EncodeRow.subn x y
  | .shl x y => Laws.EncodeRow.shl x y
  | .sneVxVy x y => Laws.EncodeRow.sneVxVy x y
  | .ldINnn nnn => Laws.EncodeRow.ldINnn nnn
  | .jpV0 nnn => Laws.EncodeRow.jpV0 nnn
  | .rnd x nn => Laws.EncodeRow.rnd x nn
  | .drw x y n => Laws.EncodeRow.drw x y n
  | .skp x => Laws.EncodeRow.skp x
  | .sknp x => Laws.EncodeRow.sknp x
  | .ldVxDt x => Laws.EncodeRow.ldVxDt x
  | .ldVxK x => Laws.EncodeRow.ldVxK x
  | .ldDtVx x => Laws.EncodeRow.ldDtVx x
  | .ldStVx x => Laws.EncodeRow.ldStVx x
  | .addIVx x => Laws.EncodeRow.addIVx x
  | .ldFVx x => Laws.EncodeRow.ldFVx x
  | .ldBVx x => Laws.EncodeRow.ldBVx x
  | .ldMiVx x => Laws.EncodeRow.ldMiVx x
  | .ldVxMi x => Laws.EncodeRow.ldVxMi x

theorem matches_row_of_decodeWord (h : decodeWord op = some i) : op &&& i.row.mask = i.row.mtch := by
  rw [← encode_of_decodeWord h]
  exact encode_matches_row i

/-! ### The unrecognized opcodes -/

theorem ite_some_eq_none_iff {α : Type} {c : Prop} [Decidable c] {a : α} {o : Option α} :
    (if c then some a else o) = none ↔ ¬c ∧ o = none := by
  by_cases hc : c <;> simp [hc]

theorem decodeGroup0_eq_none_iff : decodeGroup0 op = none ↔ op.toNat % 4096 ≠ 0x0E0 ∧ op.toNat % 4096 ≠ 0x0EE := by
  simp [decodeGroup0, ite_some_eq_none_iff, fieldNNN_eq_iff]

theorem decodeGroup8_eq_none_iff : decodeGroup8 op = none ↔ op.toNat % 16 ∈ [8, 9, 0xA, 0xB, 0xC, 0xD, 0xF] := by
  have hlt : op.toNat % 16 < 16 := Nat.mod_lt _ (by decide)
  simp only [decodeGroup8, ite_some_eq_none_iff, fieldN_eq_iff]
  generalize op.toNat % 16 = n at hlt
  revert n
  decide

theorem decodeGroupE_eq_none_iff : decodeGroupE op = none ↔ op.toNat % 256 ∉ [0x9E, 0xA1] := by
  simp [decodeGroupE, ite_some_eq_none_iff, fieldNN_eq_iff]

theorem decodeGroupF_eq_none_iff :
    decodeGroupF op = none ↔ op.toNat % 256 ∉ [0x07, 0x0A, 0x15, 0x18, 0x1E, 0x29, 0x33, 0x55, 0x65] := by
  simp [decodeGroupF, ite_some_eq_none_iff, fieldNN_eq_iff]

/-- Only the first nibbles with a second key can leave an opcode unrecognized. -/
theorem decodeWord_eq_none_iff :
    decodeWord op = none ↔
      (fieldF op = 0x0 ∧ decodeGroup0 op = none) ∨ (fieldF op = 0x5 ∧ fieldN op ≠ 0) ∨
        (fieldF op = 0x8 ∧ decodeGroup8 op = none) ∨ (fieldF op = 0x9 ∧ fieldN op ≠ 0) ∨
        (fieldF op = 0xE ∧ decodeGroupE op = none) ∨ (fieldF op = 0xF ∧ decodeGroupF op = none) := by
  obtain ⟨k, hF⟩ := exists_fieldF_eq op
  rw [decodeWord, hF]
  match k, hF with
  | 0x0, _ => change decodeGroup0 op = none ↔ _; simp
  | 0x5, _ | 0x9, _ => change (if fieldN op = 0 then some _ else none) = none ↔ _; simp
  | 0x8, _ => change decodeGroup8 op = none ↔ _; simp
  | 0xE, _ => change decodeGroupE op = none ↔ _; simp
  | 0xF, _ => change decodeGroupF op = none ↔ _; simp
  | 0x1, _ | 0x2, _ | 0x3, _ | 0x4, _ | 0x6, _ | 0x7, _ | 0xA, _ | 0xB, _ | 0xC, _ | 0xD, _ =>
    exact iff_of_false nofun (by simp)
  | ⟨n + 16, hk⟩, _ => exact absurd hk (by omega)

end Sys2Proof

namespace Sys2Proof.Proofs

open Sys2Proof Sys2Proof.Machine Sys2Proof.Claims

/-- Settles O10, from the fields of each word shape. -/
theorem decodeOfEncode : Obligations.DecodeOfEncode :=
  fun i rest => ⟨decodeWord_encode i, decode_encodeBytes i rest⟩

/-- Settles O9: a field and its mask are the same number. -/
theorem opcodeFieldsAreTheMasks : Obligations.OpcodeFieldsAreTheMasks := by
  refine fun op => ⟨?_, ?_, ?_, ?_, ?_, ?_, ?_⟩
  · rw [toNat_fieldF]
    exact (toNat_and_F000 op).symm
  · rw [val_fieldX, ← Nat.shiftRight_eq_div_pow op.toNat 8, ← BitVec.toNat_ushiftRight]
    exact (toNat_and_low (op >>> 8) 4 (by decide)).symm
  · rw [val_fieldY, ← Nat.shiftRight_eq_div_pow op.toNat 4, ← BitVec.toNat_ushiftRight]
    exact (toNat_and_low (op >>> 4) 4 (by decide)).symm
  · exact (toNat_fieldN op).trans (toNat_and_low op 4 (by decide)).symm
  · exact (val_fieldRows op).trans (toNat_and_low op 4 (by decide)).symm
  · exact (toNat_fieldNN op).trans (toNat_and_low op 8 (by decide)).symm
  · exact (toNat_fieldNNN op).trans (toNat_and_low op 12 (by decide)).symm

/-- Settles O11: the decoder's keys and operands are all the bits of the opcode. -/
theorem encodeOfDecode : Obligations.EncodeOfDecode :=
  fun _ _ => encode_of_decodeWord

/-- Settles O12: each row decodes to its own instruction, and a decoded opcode matches the row of its instruction. -/
theorem decodeFollowsOpcodeMap : Obligations.DecodeFollowsOpcodeMap := by
  refine fun op => ⟨fun k h => ⟨instrOfRow k op, decodesAs_instrOfRow k op h, rowIndex_instrOfRow k op⟩, fun hno => ?_⟩
  have hnone : decodeWord op = none :=
    Option.eq_none_iff_forall_ne_some.2 fun i hi => hno i.rowIndex (matches_row_of_decodeWord hi)
  refine ⟨hnone, fun s hs => ?_⟩
  subst hs
  exact step_of_unrecognized hnone

/-- Settles O13: an opcode of two rows would decode to an instruction of each. -/
theorem opcodeRowsDoNotOverlap : Obligations.OpcodeRowsDoNotOverlap := by
  intro op j k hj hk
  have h : instrOfRow j op = instrOfRow k op :=
    Option.some.inj ((decodesAs_instrOfRow j op hj).symm.trans (decodesAs_instrOfRow k op hk))
  rw [← rowIndex_instrOfRow j op, h, rowIndex_instrOfRow]

/-- Settles O14: the list goes through the first nibbles that have a second key. -/
theorem unrecognizedOpcodesAreListed : Obligations.UnrecognizedOpcodesAreListed := by
  intro op
  have hgroup0 : (op.toNat ≤ 0x0FFF ∧ op.toNat ≠ 0x00E0 ∧ op.toNat ≠ 0x00EE) ↔
      op.toNat / 0x1000 = 0 ∧ op.toNat % 4096 ≠ 0x0E0 ∧ op.toNat % 4096 ≠ 0x0EE := by omega
  rw [hgroup0, decodeWord_eq_none_iff, decodeGroup0_eq_none_iff, decodeGroup8_eq_none_iff, decodeGroupE_eq_none_iff,
    decodeGroupF_eq_none_iff]
  simp only [ne_eq, fieldF_eq_iff, fieldN_eq_iff]
  rfl

/-- Settles O15: the eight words are fixed. -/
theorem sampleWordsDecode : Obligations.SampleWordsDecode := by
  unfold Obligations.SampleWordsDecode
  decide

end Sys2Proof.Proofs
end

section
/-! PROOFS. The step cycle (40_step_cycle.md): the frames of the phases around the dispatch, the state that the dispatch leaves, the
two anomalies it can raise, and the event that the step assembles. -/

namespace Sys2Proof.Machine

open Sys2Proof.Claims

variable {s t u u' : State} {i : Instr} {l : List Part}

/-! ### The fetch and the phases around the dispatch -/

theorem toNat_fetch (s : State) :
    (fetch s).toNat = (memRead s s.pc.toNat).toNat * 256 + (memRead s (s.pc.toNat + 1)).toNat :=
  toNat_wordOfBytes _ _

/-- R91: what keeps `PC` and memory keeps the fetched opcode. -/
theorem SameBut.fetch_eq (h : SameBut l s t) (hpc : .pc ∉ l) (hmem : .mem ∉ l) : fetch t = fetch s :=
  fetch_congr (h .pc hpc) (h .mem hmem)

theorem sameBut_beginStep (s : State) : SameBut [.ev] s (beginStep s) := by
  intro p hp
  cases p <;> simp [Same] at hp ⊢

theorem sameBut_endStep (u : State) : SameBut [.dt, .st, .ev, .inputs] u (endStep u) := by
  intro p hp
  cases p <;> simp [Same] at hp ⊢

theorem toNat_dt_endStep (u : State) : (endStep u).dt.toNat = u.dt.toNat - 1 := by
  rw [endStep_dt, tick_toNat]

theorem toNat_st_endStep (u : State) : (endStep u).st.toNat = u.st.toNat - 1 := by
  rw [endStep_st, tick_toNat]

/-- R231: with no tone in the record yet, the timer pass emits it exactly when it finds `ST` at 1. -/
theorem tone_endStep_iff (h : u.ev.tone = false) : (endStep u).ev.tone = true ↔ u.st.toNat = 1 := by
  simp [h, ← BitVec.toNat_inj]

/-! ### What the dispatch leaves -/

theorem step_of_dispatchLeaves (h : DispatchLeaves s u) : step s = .next (endStep u) := by
  obtain ⟨i, hd, hu⟩ | ⟨hd, rfl⟩ := h
  · rw [step_of_decode hd, hu, finishStep]
  · exact step_of_unrecognized hd

theorem dispatchLeaves_of_step (h : step s = .next t) : ∃ u, DispatchLeaves s u ∧ t = endStep u := by
  obtain ⟨i, u, hd, hu, ht⟩ | ⟨hd, ht⟩ := step_cases h
  · exact ⟨u, .inl ⟨i, hd, hu⟩, ht⟩
  · exact ⟨_, .inr ⟨hd, rfl⟩, ht⟩

theorem dispatchLeaves_unique (h : DispatchLeaves s u) (h' : DispatchLeaves s u') : u' = u := by
  obtain ⟨i, hd, hu⟩ | ⟨hd, hu⟩ := h <;> obtain ⟨i', hd', hu'⟩ | ⟨hd', hu'⟩ := h'
  · cases hd.symm.trans hd'
    cases hu.symm.trans hu'
    rfl
  · cases hd.symm.trans hd'
  · cases hd.symm.trans hd'
  · rw [hu', hu]

/-! ### The two anomalies -/

theorem dispatchLeaves_of_unrecognized (h : decodeWord (fetch s) = none) :
    DispatchLeaves s (raiseAnomaly (.unknownOpcode (fetch s)) (beginStep s)) :=
  .inr ⟨h, rfl⟩

/-- R222: the call or return records the encoding of itself, which is the fetched opcode (assumption 16). -/
theorem dispatchLeaves_of_stackFaults (h : StackFaults s) :
    DispatchLeaves s (raiseAnomaly (.stackFault (fetch s)) (beginStep s)) := by
  obtain ⟨nnn, hd, hfull⟩ | ⟨hd, hempty⟩ := h
  · refine .inl ⟨_, hd, ?_⟩
    rw [exec, execCall_of_full (s := beginStep s) nnn hfull, encode_of_decodeWord hd]
  · refine .inl ⟨_, hd, ?_⟩
    rw [exec, execRet_of_empty (s := beginStep s) hempty, encode_of_decodeWord hd]

theorem decodes_of_stackFaults (h : StackFaults s) : decodeWord (fetch s) ≠ none := by
  obtain ⟨nnn, hd, -⟩ | ⟨hd, -⟩ := h <;> simp [hd]

/-- R96 and R222: a step whose dispatch only raises an anomaly changes what every step may change, and nothing else. -/
theorem sameBut_anomalyStep (a : Anomaly) (s : State) :
    SameBut [.dt, .st, .ev, .inputs] s (endStep (raiseAnomaly a (beginStep s))) :=
  (((sameBut_beginStep s).trans (sameBut_raiseAnomaly a _)).trans (sameBut_endStep _)).mono (by simp)

/-! ### The event -/

/-- Only a call with a full stack and a return with an empty one write the event. -/
theorem ev_exec_of_no_stackFault (he : exec i s = .next u) (hcall : ∀ nnn, i = .call nnn → s.sp.toNat < 16)
    (hret : i = .ret → s.sp.toNat ≠ 0) : u.ev = s.ev := by
  cases i with
  | ret =>
    obtain ⟨hempty, -⟩ | ⟨j, -, rfl⟩ := exec_ret_cases he
    · exact absurd hempty (hret rfl)
    · rfl
  | call nnn =>
    obtain ⟨hfull, -⟩ | ⟨-, rfl⟩ := exec_call_cases he
    · exact absurd (hcall nnn rfl) (Nat.not_lt.2 hfull)
    · simp
  | _ => exact exec_sameBut he .ev (by simp [mayWrite])

theorem ev_of_no_anomaly (h : DispatchLeaves s u) (hd : decodeWord (fetch s) ≠ none) (hf : ¬StackFaults s) :
    u.ev = StepEvent.empty := by
  obtain ⟨i, hi, hu⟩ | ⟨hnone, -⟩ := h
  · refine ev_exec_of_no_stackFault hu (fun nnn hcall => ?_) (fun hret hempty => ?_)
    · exact Nat.not_le.1 fun hfull => hf (.inl ⟨nnn, hcall ▸ hi, hfull⟩)
    · exact hf (.inr ⟨hret ▸ hi, hempty⟩)
  · exact absurd hnone hd

/-- Everything a dispatch can put into the event record. -/
theorem ev_dispatchLeaves_cases (h : DispatchLeaves s u) :
    (decodeWord (fetch s) = none ∧ ¬StackFaults s ∧ u.ev = { StepEvent.empty with unknownOpcode := some (fetch s) }) ∨
      (decodeWord (fetch s) ≠ none ∧ StackFaults s ∧ u.ev = { StepEvent.empty with stackFault := some (fetch s) }) ∨
      (decodeWord (fetch s) ≠ none ∧ ¬StackFaults s ∧ u.ev = StepEvent.empty) := by
  by_cases hd : decodeWord (fetch s) = none
  · cases dispatchLeaves_unique (dispatchLeaves_of_unrecognized hd) h
    exact .inl ⟨hd, fun hf => decodes_of_stackFaults hf hd, rfl⟩
  · by_cases hf : StackFaults s
    · cases dispatchLeaves_unique (dispatchLeaves_of_stackFaults hf) h
      exact .inr (.inl ⟨hd, hf, rfl⟩)
    · exact .inr (.inr ⟨hd, hf, ev_of_no_anomaly h hd hf⟩)

theorem tone_dispatchLeaves (h : DispatchLeaves s u) : u.ev.tone = false := by
  obtain ⟨-, -, hev⟩ | ⟨-, -, hev⟩ | ⟨-, -, hev⟩ := ev_dispatchLeaves_cases h <;> rw [hev] <;> rfl

end Sys2Proof.Machine

namespace Sys2Proof.Proofs

open Sys2Proof Sys2Proof.Machine Sys2Proof.Claims

/-- Settles O18: the step raises the anomaly between its two frames, and no frame holds `PC` or memory. -/
theorem unknownOpcodeIsReported : Obligations.UnknownOpcodeIsReported := by
  intro s hd
  have hframe := sameBut_anomalyStep (.unknownOpcode (fetch s)) s
  exact ⟨_, step_of_unrecognized hd, by simp [Anomaly.record], by simp [Anomaly.record, StepEvent.empty],
    toNat_dt_endStep _, toNat_st_endStep _, hframe, hframe.fetch_eq (by simp) (by simp)⟩

/-- Settles O19: the dispatch fills the record by one of three cases, and the end of the step adds the tone and the redraw flag. -/
theorem stepEventContents : Obligations.StepEventContents := by
  intro s t hs
  obtain ⟨u, hu, rfl⟩ := dispatchLeaves_of_step hs
  refine ⟨by simp, fun u' hu' => ?_, ?_⟩
  · rw [dispatchLeaves_unique hu hu']
    exact tone_endStep_iff (tone_dispatchLeaves hu)
  · obtain ⟨hd, hf, hev⟩ | ⟨hd, hf, hev⟩ | ⟨hd, hf, hev⟩ := ev_dispatchLeaves_cases hu <;>
      simp [hd, hf, hev, StepEvent.empty]

/-- Settles O21: no step but a return stops, and `SP` at most 16 gives a return its slot. -/
theorem everyStepCompletes : Obligations.EveryStepCompletes :=
  fun _ hsp => step_completes hsp

/-- Settles O16: the opcode is made of the two bytes, and a read reduces its address mod 4096 itself. -/
theorem fetchIsBigEndian : Obligations.FetchIsBigEndian := by
  intro s
  rw [toNat_fetch, memRead_mod, memRead_mod]

/-- Settles O17: `finishStep` lets a stop of the dispatch stand, and the two phases around it have their frames. -/
theorem stepRunsDecodedInstruction : Obligations.StepRunsDecodedInstruction := by
  refine ⟨fun s i hd => ⟨fun u hu => ?_, fun f hf => ?_, fun r hr => ?_⟩, fun s => ⟨beginStep_ev s, sameBut_beginStep s⟩,
    fun u => ⟨sameBut_endStep u, endStep_randIn u, endStep_stepNo u, by simp⟩⟩
  · exact step_of_dispatchLeaves (.inl ⟨i, hd, hu⟩)
  · rw [step_of_decode hd, hf, finishStep]
  · rw [step_of_decode hd, hr, finishStep]

end Sys2Proof.Proofs
end

section
/-! PROOFS. The control flow (41_control_flow.md): where a jump or a skip leaves `PC`, what a call puts on the stack and a return
takes from it, and the StackFault of both. -/

namespace Sys2Proof.Machine

open Sys2Proof.Claims

variable {s t : State} {i : Instr} {l : List Part}

/-! ### The addresses that `PC` takes -/

theorem toNat_jumpTarget (nnn : Addr12) : (jumpTarget nnn).toNat = nnn.toNat :=
  BitVec.toNat_setWidth_of_le (by decide)

theorem toNat_jumpTargetV0 (s : State) (nnn : Addr12) :
    (jumpTargetV0 s nnn).toNat = (nnn.toNat + valV s V0) % 65536 := by
  have hzext : (zextByte (readV s V0)).toNat = valV s V0 := BitVec.toNat_setWidth_of_le (by decide)
  rw [jumpTargetV0, BitVec.toNat_add, hzext]
  exact congrArg (fun n => (n + valV s V0) % 65536) (toNat_jumpTarget nnn)

theorem pcMovesBy_pcNext (s : State) : PcMovesBy 2 s (pcNext s) := BitVec.toNat_add s.pc 2

theorem pcMovesBy_pcSkip (s : State) : PcMovesBy 4 s (pcSkip s) := BitVec.toNat_add s.pc 4

/-! ### The skips -/

/-- R94: a dispatch that is a `skipIf` skips exactly when the test of the `skipIf` says so. -/
theorem skipsWhen_of_skipIf {test : Bool} {cond : Prop} (he : exec i s = .next (skipIf test s)) (hc : test = true ↔ cond) :
    SkipsWhen i s cond := by
  refine ⟨_, he, fun h => ?_, fun h => ?_, sameBut_skipIf test s⟩
  · rw [hc.2 h]
    exact pcMovesBy_pcSkip s
  · rw [Bool.eq_false_iff.2 (mt hc.1 h)]
    exact pcMovesBy_pcNext s

theorem readV_beq_iff (s : State) (x : Reg) (b : Byte) : (readV s x == b) = true ↔ valV s x = b.toNat := by
  rw [beq_iff_eq, valV, BitVec.toNat_inj]

theorem readV_bne_iff (s : State) (x : Reg) (b : Byte) : (readV s x != b) = true ↔ valV s x ≠ b.toNat := by
  rw [bne_iff_ne, valV, BitVec.toNat_ne_iff_ne]

/-! ### The StackFault -/

/-- R222: the opcode in the event is the encoding of the instruction (assumption 16). -/
theorem raisesStackFault_of_raiseAnomaly (he : exec i s = .next (raiseAnomaly (.stackFault (encode i)) s)) :
    RaisesStackFault i s (encode i).toNat :=
  ⟨_, _, he, rfl, rfl, sameBut_raiseAnomaly _ s⟩

/-! ### The call and the return -/

/-- The state after a call with a free slot (R113). -/
def afterCall (s : State) (nnn : Addr12) : State :=
  setPc (setSp (writeStack s s.sp.toNat s.pc) (s.sp + 1)) (jumpTarget nnn)

theorem toNat_sp_afterCall (nnn : Addr12) (h : s.sp.toNat < 16) : (afterCall s nnn).sp.toNat = s.sp.toNat + 1 := by
  rw [afterCall, setPc_sp, setSp_sp]
  bv_omega

theorem stack_afterCall (s : State) (nnn : Addr12) (j : Fin 16) :
    (afterCall s nnn).stack[j] = if j.val = s.sp.toNat then s.pc else s.stack[j] :=
  writeStack_getElem s s.pc j

theorem sameBut_afterCall (s : State) (nnn : Addr12) : SameBut [.pc, .sp, .stack] s (afterCall s nnn) :=
  ((sameBut_writeStack s _ _).trans (sameBut_setSp _ _)).trans (sameBut_setPc _ _)

/-- The state after a return from the call saved in slot `j` (R111). -/
def afterRet (s : State) (j : Fin 16) : State := setPc (setSp s (s.sp - 1)) (s.stack[j] + 2)

theorem toNat_sp_afterRet (j : Fin 16) (h : s.sp.toNat = j.val + 1) : (afterRet s j).sp.toNat = j.val := by
  rw [afterRet, setPc_sp, setSp_sp]
  bv_omega

theorem toNat_pc_afterRet (s : State) (j : Fin 16) : (afterRet s j).pc.toNat = (s.stack[j].toNat + 2) % 65536 :=
  BitVec.toNat_add s.stack[j] 2

theorem sameBut_afterRet (s : State) (j : Fin 16) : SameBut [.pc, .sp] s (afterRet s j) :=
  (sameBut_setSp s _).trans (sameBut_setPc _ _)

/-- A part that a frame lists but that came back to what it was needs no place in the list. -/
theorem SameBut.of_restored {p : Part} (h : SameBut (p :: l) s t) (hp : Same s t p) : SameBut l s t := by
  intro q hq
  by_cases hqp : q = p
  · exact hqp ▸ hp
  · exact h q (by simp [hqp, hq])

end Sys2Proof.Machine

namespace Sys2Proof.Proofs

open Sys2Proof Sys2Proof.Machine Sys2Proof.Claims

/-- Settles O30: a call has a free slot or a full stack. -/
theorem callPushesItsAddress : Obligations.CallPushesItsAddress := by
  refine ⟨decodesAs_instrOfRow 3, fun s nnn => ⟨fun hfree => ?_, fun hfull => ?_⟩⟩
  · exact ⟨afterCall s nnn, execCall_of_free nnn hfree, toNat_sp_afterCall nnn hfree, toNat_jumpTarget nnn, stack_afterCall s nnn,
      (sameBut_afterCall s nnn).mono (by simp)⟩
  · have hop : (encode (.call nnn)).toNat = 0x2000 + nnn.toNat := toNat_encodeNNN 0x2000 nnn rfl
    rw [← hop]
    exact raisesStackFault_of_raiseAnomaly (execCall_of_full nnn hfull)

/-- Settles O31: the saved address is in the slot below `SP`, and with `SP = 0` there is none. -/
theorem retReturnsPastTheCall : Obligations.RetReturnsPastTheCall := by
  refine ⟨decodesAs_instrOfRow 1, fun s j hj => ?_, fun s hempty => ?_⟩
  · exact ⟨afterRet s j, execRet_of_occupied j hj, toNat_sp_afterRet j hj, toNat_pc_afterRet s j,
      (sameBut_afterRet s j).mono (by simp)⟩
  · exact raisesStackFault_of_raiseAnomaly (execRet_of_empty hempty)

/-- Settles O34: the return reads the slot that the call wrote, and takes back the one it added to `SP`. -/
theorem callThenRetComesBack : Obligations.CallThenRetComesBack := by
  intro s nnn hfree
  obtain ⟨j, hj⟩ : ∃ j : Fin 16, j.val = s.sp.toNat := ⟨⟨_, hfree⟩, rfl⟩
  have hsp : (afterCall s nnn).sp.toNat = j.val + 1 := by rw [toNat_sp_afterCall nnn hfree, hj]
  refine ⟨afterCall s nnn, afterRet (afterCall s nnn) j, execCall_of_free nnn hfree, execRet_of_occupied j hsp, ?_, ?_⟩
  · have hslot : (afterCall s nnn).stack[j] = s.pc := by rw [stack_afterCall, if_pos hj]
    rw [PcMovesBy, toNat_pc_afterRet, hslot]
  · have hframe := ((sameBut_afterCall s nnn).trans (sameBut_afterRet _ j)).mono (l' := [.sp, .pc, .stack]) (by simp)
    exact hframe.of_restored (BitVec.eq_of_toNat_eq ((toNat_sp_afterRet j hsp).trans hj))

/-- Settles O29: each jump is one write of `PC`. -/
theorem jumpsSetPc : Obligations.JumpsSetPc :=
  ⟨decodesAs_instrOfRow 2, decodesAs_instrOfRow 20, fun s nnn =>
    ⟨⟨_, rfl, toNat_jumpTarget nnn, sameBut_setPc s _⟩, ⟨_, rfl, toNat_jumpTargetV0 s nnn, sameBut_setPc s _⟩⟩⟩

/-- Settles O35: each skip is a `skipIf` on the comparison of `VX` with the byte. -/
theorem byteSkips : Obligations.ByteSkips :=
  ⟨decodesAs_instrOfRow 4, decodesAs_instrOfRow 5, fun s x nn =>
    ⟨skipsWhen_of_skipIf rfl (readV_beq_iff s x nn), skipsWhen_of_skipIf rfl (readV_bne_iff s x nn)⟩⟩

/-- Settles O36: each skip is a `skipIf` on the comparison of `VX` with the value of `VY`. -/
theorem registerSkips : Obligations.RegisterSkips :=
  ⟨decodesAs_instrOfRow 6, decodesAs_instrOfRow 18, fun s x y =>
    ⟨skipsWhen_of_skipIf rfl (readV_beq_iff s x (readV s y)), skipsWhen_of_skipIf rfl (readV_bne_iff s x (readV s y))⟩⟩

end Sys2Proof.Proofs
end

section
/-! PROOFS. The register and arithmetic instructions (42_alu.md): the two shapes that a dispatch of this file has, a result alone or
a result and then the flag, and what the results and the flags are as numbers (R130). -/

namespace Sys2Proof.Machine

open Sys2Proof.Claims

variable {s t : State} {i : Instr} {x : Reg} {b result flag : Byte} {n m : Nat}

/-! ### The two shapes of a dispatch -/

/-- The policy `next` after writes that leave `PC` alone. -/
theorem pcMovesBy_pcNext_of_pc_eq (h : t.pc = s.pc) : PcMovesBy 2 s (pcNext t) := by
  rw [PcMovesBy, ← h]
  exact pcMovesBy_pcNext t

/-- A dispatch that writes one register and ends with `next` is settled by the number it writes. -/
theorem writesOnlyV_of_writeV (he : exec i s = .next (pcNext (writeV s x b))) (hb : b.toNat = n) :
    WritesOnlyV i s x n :=
  ⟨_, he, by simpa using hb, fun r hr => by simp [hr], pcMovesBy_pcNext_of_pc_eq rfl,
    (sameBut_writeV s x b).pcNext.mono (by simp)⟩

/-- R23: a dispatch that writes a result and then the flag is settled by the two numbers. -/
theorem writesVAndFlag_of_writeResultAndFlag (he : exec i s = .next (pcNext (writeResultAndFlag s x result flag)))
    (hresult : result.toNat = n) (hflag : flag.toNat = m) : WritesVAndFlag i s x n m :=
  ⟨_, he, by simpa using hflag, fun hx => by simpa [hx] using hresult, fun r hrx hrf => by simp [hrx, hrf],
    pcMovesBy_pcNext_of_pc_eq rfl, (sameBut_writeResultAndFlag s x result flag).pcNext.mono (by simp)⟩

/-! ### The results -/

/-- R130: a difference wraps mod 256; the 256 added first keeps it a natural number. -/
theorem toNat_sub_byte (a b : Byte) : (a - b).toNat = (a.toNat + 256 - b.toNat) % 256 := by
  bv_omega

theorem toNat_shiftRight_one (b : Byte) : (b >>> 1).toNat = b.toNat / 2 := by
  rw [BitVec.toNat_ushiftRight, Nat.shiftRight_eq_div_pow, Nat.pow_one]

theorem toNat_shiftLeft_one (b : Byte) : (b <<< 1).toNat = b.toNat * 2 % 256 := by
  rw [BitVec.toNat_shiftLeft, Nat.shiftLeft_eq, Nat.pow_one]

/-! ### The flags (R24) -/

theorem toNat_flagByte (c : Bool) : (flagByte c).toNat = if c then 1 else 0 := by
  cases c <;> rfl

theorem toNat_carryFlag (a b : Byte) : (carryFlag a b).toNat = if a.toNat + b.toNat > 255 then 1 else 0 := by
  simp [carryFlag, toNat_flagByte]

theorem toNat_notBorrowFlag (a b : Byte) : (notBorrowFlag a b).toNat = if b.toNat > a.toNat then 0 else 1 := by
  rw [notBorrowFlag, toNat_flagByte]
  by_cases h : b.toNat ≤ a.toNat
  · simp [h]
  · simp [h, Nat.not_le.1 h]

theorem toNat_lowBitFlag (b : Byte) : (lowBitFlag b).toNat = b.toNat % 2 := by
  rw [lowBitFlag, BitVec.toNat_and]
  exact Nat.and_one_is_mod _

theorem toNat_highBitFlag (b : Byte) : (highBitFlag b).toNat = b.toNat / 128 := by
  rw [highBitFlag, BitVec.toNat_ushiftRight, Nat.shiftRight_eq_div_pow]

end Sys2Proof.Machine

namespace Sys2Proof.Proofs

open Sys2Proof Sys2Proof.Machine Sys2Proof.Claims

/-- Settles O40: the sum of the bytes is the exact sum mod 256, and the flag is the test on the exact sum. -/
theorem addRegistersCarries : Obligations.AddRegistersCarries :=
  ⟨decodesAs_instrOfRow 13, fun _ _ _ =>
    writesVAndFlag_of_writeResultAndFlag rfl (BitVec.toNat_add _ _) (toNat_carryFlag _ _)⟩

/-- Settles O41: the two subtractions differ only in which operand is subtracted from which. -/
theorem subtractionsBorrow : Obligations.SubtractionsBorrow :=
  ⟨decodesAs_instrOfRow 14, decodesAs_instrOfRow 16, fun _ _ _ =>
    ⟨writesVAndFlag_of_writeResultAndFlag rfl (toNat_sub_byte _ _) (toNat_notBorrowFlag _ _),
      writesVAndFlag_of_writeResultAndFlag rfl (toNat_sub_byte _ _) (toNat_notBorrowFlag _ _)⟩⟩

/-- Settles O42: a shift by one bit is a division or a product by 2, and its flag reads `VX` from before the shift. -/
theorem shiftsMoveOneBit : Obligations.ShiftsMoveOneBit :=
  ⟨decodesAs_instrOfRow 15, decodesAs_instrOfRow 17, fun _ _ _ =>
    ⟨writesVAndFlag_of_writeResultAndFlag rfl (toNat_shiftRight_one _) (toNat_lowBitFlag _),
      writesVAndFlag_of_writeResultAndFlag rfl (toNat_shiftLeft_one _) (toNat_highBitFlag _)⟩⟩

/-- Settles O37: the byte written is the immediate, or the operand `VY` itself. -/
theorem registerLoads : Obligations.RegisterLoads :=
  ⟨decodesAs_instrOfRow 7, decodesAs_instrOfRow 9, fun _ _ _ _ =>
    ⟨writesOnlyV_of_writeV rfl rfl, writesOnlyV_of_writeV rfl rfl⟩⟩

/-- Settles O38: one register write of the sum mod 256. -/
theorem addByteWrapsWithoutFlag : Obligations.AddByteWrapsWithoutFlag :=
  ⟨decodesAs_instrOfRow 8, fun _ _ _ => writesOnlyV_of_writeV rfl (BitVec.toNat_add _ _)⟩

/-- Settles O39: a bitwise operation on bytes is the one on their numbers, with nothing to wrap. -/
theorem bitwiseInstructions : Obligations.BitwiseInstructions :=
  ⟨decodesAs_instrOfRow 10, decodesAs_instrOfRow 11, decodesAs_instrOfRow 12, fun _ _ _ =>
    ⟨writesOnlyV_of_writeV rfl (BitVec.toNat_or _ _), writesOnlyV_of_writeV rfl (BitVec.toNat_and _ _),
      writesOnlyV_of_writeV rfl (BitVec.toNat_xor _ _)⟩⟩

/-- Settles O43: the masked byte is written as it is, and `randByte` takes the head of the host's bytes (assumption 2). -/
theorem randomByteIsMasked : Obligations.RandomByteIsMasked :=
  ⟨decodesAs_instrOfRow 21, fun _ _ _ => writesOnlyV_of_writeV rfl rfl, fun s _ _ h => randByte_of_cons s h⟩

end Sys2Proof.Proofs
end

section
/-! PROOFS. The index register and memory instructions (43_index_memory.md): the numbers that `I` takes (R160), and what a block of
bytes written from `I` on puts at its own addresses and leaves at all others. -/

namespace Sys2Proof.Machine

open Sys2Proof.Claims

variable (s : State)

/-! ### The numbers that `I` and its flag take -/

theorem toNat_index_add_byte (w : Word) (b : Byte) : (w + zextByte b).toNat = (w.toNat + b.toNat) % 65536 := by
  have hzext : (zextByte b).toNat = b.toNat := BitVec.toNat_setWidth_of_le (by decide)
  rw [BitVec.toNat_add, hzext]

/-- R163: the product of a byte and 5 is far below 65536, so nothing wraps. -/
theorem toNat_glyphAddr (x : Reg) : (glyphAddr s x).toNat = valV s x * 5 := by
  have hbyte : valV s x < 256 := (readV s x).isLt
  exact Nat.mod_eq_of_lt (show valV s x * 5 < 2 ^ 16 by omega)

theorem toNat_indexAfter (n : Nat) : (indexAfter s n).toNat = (s.i.toNat + n) % 65536 := by
  rw [indexAfter, BitVec.toNat_add, BitVec.toNat_ofNat, Nat.add_mod_mod]

theorem toNat_indexOverflowFlag (w : Word) (b : Byte) :
    (indexOverflowFlag w b).toNat = if w.toNat + b.toNat > 0x0FFF then 1 else 0 := by
  simp [indexOverflowFlag, toNat_flagByte]

/-! ### A block of bytes written from `I` on -/

theorem memRead_memWriteList_indexAddr {bs : List Byte} {j : Nat} (hl : bs.length ≤ 4096) (h : j < bs.length) :
    memRead (memWriteList s s.i.toNat bs) (indexAddr s j) = bs[j] := by
  rw [indexAddr, memRead_mod, memRead_memWriteList_inside s _ j bs hl h]

/-- R164: a digit is below 10, so a byte holds it as it is. -/
theorem map_toNat_bcdDigits (b : Byte) :
    (bcdDigits b).map BitVec.toNat = [b.toNat / 100, b.toNat / 10 % 10, b.toNat % 10] := by
  simp (disch := omega) only [bcdDigits, List.map_cons, List.map_nil, BitVec.toNat_ofNat, Nat.mod_eq_of_lt]

theorem toNat_memRead_bcdDigits (b : Byte) (j : Fin 3) :
    (memRead (memWriteList s s.i.toNat (bcdDigits b)) (indexAddr s j)).toNat =
      [b.toNat / 100, b.toNat / 10 % 10, b.toNat % 10][j] := by
  have hlen : (bcdDigits b).length = 3 := rfl
  rw [memRead_memWriteList_indexAddr s (by omega) (by omega)]
  simp [← map_toNat_bcdDigits]

end Sys2Proof.Machine

namespace Sys2Proof.Proofs

open Sys2Proof Sys2Proof.Machine Sys2Proof.Claims

/-- Settles O45: `I` wraps mod 65536, and the flag is the test on the exact sum; `VX` is read before VF is written. -/
theorem addToIndexFlagsOverflow : Obligations.AddToIndexFlagsOverflow := by
  refine ⟨decodesAs_instrOfRow 29, fun s x => ?_⟩
  have he : exec (.addIVx x) s = .next _ := rfl
  refine ⟨_, he, toNat_index_add_byte _ _, ?_, fun r hr => readV_exec_of_not_destRegs he hr,
    pcMovesBy_pcNext_of_pc_eq rfl, (exec_sameBut he).mono (by simp [mayWrite])⟩
  rw [readV_pcNext, readV_writeFlag, if_pos rfl]
  exact toNat_indexOverflowFlag _ _

/-- Settles O46: the three bytes of the list `bcdDigits`, and no byte past them. -/
theorem decimalDigitsAreStored : Obligations.DecimalDigitsAreStored := by
  refine ⟨decodesAs_instrOfRow 31, fun s x => ?_⟩
  have he : exec (.ldBVx x) s = .next _ := rfl
  refine ⟨_, he, toNat_memRead_bcdDigits s _ 0, toNat_memRead_bcdDigits s _ 1, toNat_memRead_bcdDigits s _ 2, fun a ha => ?_,
    fun _ => rfl, pcMovesBy_pcNext_of_pc_eq (memWriteList_pc s _ _), (exec_sameBut he).mono (by simp [mayWrite])⟩
  rw [memRead_pcNext]
  exact memRead_memWriteList_outside s _ a _ ha

/-- Settles O47: the block's byte `j` is `V[j]`, and the block has the `X + 1` bytes by which `I` moves on. -/
theorem registerBlockIsStored : Obligations.RegisterBlockIsStored := by
  refine ⟨decodesAs_instrOfRow 32, fun s x => ?_⟩
  have he : exec (.ldMiVx x) s = .next _ := rfl
  have hlen := length_blockOfV s x
  refine ⟨_, he, fun r hr => ?_, fun a ha => ?_, fun _ => rfl, toNat_indexAfter s _,
    pcMovesBy_pcNext_of_pc_eq (memWriteList_pc s _ _), (exec_sameBut he).mono (by simp [mayWrite])⟩
  · rw [memRead_pcNext, memRead_setI, memRead_memWriteList_indexAddr s (by omega) (by omega), blockOfV_getElem]
  · rw [memRead_pcNext, memRead_setI]
    exact memRead_memWriteList_outside s _ a _ fun j hj => ha j (by omega)

/-- Settles O48: the registers of the block are those numbered up to `X`, and each load reads the memory as it was. -/
theorem registerBlockIsLoaded : Obligations.RegisterBlockIsLoaded := by
  refine ⟨decodesAs_instrOfRow 33, fun s x => ?_⟩
  have he : exec (.ldVxMi x) s = .next _ := rfl
  refine ⟨_, he, fun r hr => ?_, fun r hr => readV_exec_of_not_destRegs he (Nat.not_le.2 hr), toNat_indexAfter s _,
    pcMovesBy_pcNext_of_pc_eq (loadRegs_pc s _ _), (exec_sameBut he).mono (by simp [mayWrite])⟩
  rw [readV_pcNext, readV_setI, readV_loadRegs, if_pos ((mem_blockRegs x r).2 hr), memRead_mod]

/-- Settles O44: each load is one write of `I`. -/
theorem indexLoads : Obligations.IndexLoads :=
  ⟨decodesAs_instrOfRow 19, decodesAs_instrOfRow 30, fun s nnn x =>
    ⟨⟨_, rfl, BitVec.toNat_setWidth_of_le (by decide), pcMovesBy_pcNext_of_pc_eq rfl,
        (sameBut_setI s _).pcNext.mono (by simp)⟩,
      ⟨_, rfl, toNat_glyphAddr s x, pcMovesBy_pcNext_of_pc_eq rfl, (sameBut_setI s _).pcNext.mono (by simp)⟩⟩⟩

end Sys2Proof.Proofs
end

section
/-! PROOFS. The display instructions (44_display.md): what DRW does to each cell and to VF, in the words of the sprite's covered cells,
and what a second draw finds of the first. -/

namespace Sys2Proof.Machine

open Sys2Proof.Claims

variable {s t u : State} {x y : Reg} {n : RowCount}

/-! ### The cells that a sprite covers -/

theorem rowsCover_iff_spriteCovers (s : State) (vx vy k px py : Nat) :
    RowsCover s s.i.toNat vx vy k px py ↔ SpriteCovers s vx vy k px py := by
  constructor
  · rintro ⟨row, hrow, hy, col, hcol, hb, hx⟩
    exact ⟨row, col, hrow, hcol, hb, hx, hy⟩
  · rintro ⟨row, col, hrow, hcol, hb, hx, hy⟩
    exact ⟨row, hrow, hy, col, hcol, hb, hx⟩

/-- The sprite is read from memory at `I` alone, and a draw writes neither (R182). -/
theorem spriteCovers_exec_drw (he : exec (.drw x y n) s = .next t) (vx vy k px py : Nat) :
    SpriteCovers t vx vy k px py ↔ SpriteCovers s vx vy k px py := by
  have hi : t.i = s.i := exec_sameBut he .i (by simp [mayWrite])
  have hm : ∀ a, memRead t a = memRead s a := exec_sameBut he .mem (by simp [mayWrite])
  simp only [SpriteCovers, hi, hm]

/-! ### One draw -/

/-- R182 and R184: a cell ends on when exactly one of two holds: it was on, or the sprite covers it inside the framebuffer. -/
theorem pixelAt_exec_drw (he : exec (.drw x y n) s = .next t) (px py : Nat) :
    pixelAt t.fb px py = true ↔
      ¬(pixelAt s.fb px py = true ↔ OnScreen px py ∧ SpriteCovers s (valV s x) (valV s y) n.val px py) := by
  cases he
  rw [← rowsCover_iff_spriteCovers]
  exact drawRows_pixel s _ _ _ _ _ px py

theorem cellAt_exec_drw_ne_iff (he : exec (.drw x y n) s = .next t) {px py : Nat} (hx : px < 64) (hy : py < 32) :
    cellAt t.fb (px + py * 64) ≠ cellAt s.fb (px + py * 64) ↔ SpriteCovers s (valV s x) (valV s y) n.val px py := by
  have hs : OnScreen px py := ⟨hx, hy⟩
  rw [cellAt_eq _ hx, cellAt_eq _ hx, Ne, Bool.eq_iff_iff, pixelAt_exec_drw he]
  tauto

/-- R182: VF is the collision that the sprite loop noted. -/
theorem flag_exec_drw (he : exec (.drw x y n) s = .next t) :
    readV t VF = collisionFlag (drawSprite s s.i.toNat (valV s x) (valV s y) n.val) := by
  cases he
  rw [readV_pcNext, readV_setRedraw, readV_writeFlag, if_pos rfl]

theorem toNat_collisionFlag (acc : Blit) : (collisionFlag acc).toNat = if acc.collision then 1 else 0 :=
  toNat_flagByte acc.collision

theorem flag_exec_drw_le_one (he : exec (.drw x y n) s = .next t) : (readV t VF).toNat ≤ 1 := by
  rw [flag_exec_drw he, toNat_collisionFlag]
  split <;> decide

theorem flag_exec_drw_iff_covers (he : exec (.drw x y n) s = .next t) :
    (readV t VF).toNat = 1 ↔
      ∃ px py, OnScreen px py ∧ SpriteCovers s (valV s x) (valV s y) n.val px py ∧ pixelAt s.fb px py = true := by
  have hflag : (readV t VF).toNat = 1 ↔ (drawSprite s s.i.toNat (valV s x) (valV s y) n.val).collision = true := by
    simp [flag_exec_drw he, toNat_collisionFlag]
  rw [hflag, drawSprite_eq_drawRows, drawRows_collision]
  simp only [Bool.false_eq_true, false_or, rowsCover_iff_spriteCovers]

/-- A covered cell that was on is one that the draw turned off. -/
theorem flag_exec_drw_iff_clears (he : exec (.drw x y n) s = .next t) :
    (readV t VF).toNat = 1 ↔ ∃ px py, pixelAt s.fb px py = true ∧ pixelAt t.fb px py = false := by
  rw [flag_exec_drw_iff_covers he]
  refine exists_congr fun px => exists_congr fun py => ?_
  rw [← Bool.not_eq_true (pixelAt t.fb px py), pixelAt_exec_drw he]
  tauto

/-! ### Two draws -/

/-- The second draw covers the same cells where it takes the same coordinates, so each flipped cell is flipped back. -/
theorem same_fb_of_exec_drw_twice (h₁ : exec (.drw x y n) s = .next t) (h₂ : exec (.drw x y n) t = .next u)
    (hx : valV t x = valV s x) (hy : valV t y = valV s y) : Same s u .fb := by
  intro px py
  rw [Bool.eq_iff_iff, pixelAt_exec_drw h₂, hx, hy, spriteCovers_exec_drw h₁, pixelAt_exec_drw h₁]
  tauto

theorem valV_exec_drw_of_ne_VF (he : exec (.drw x y n) s = .next t) {r : Reg} (hr : r ≠ VF) : valV t r = valV s r :=
  congrArg BitVec.toNat (readV_exec_of_not_destRegs he hr)

end Sys2Proof.Machine

namespace Sys2Proof.Proofs

open Sys2Proof Sys2Proof.Machine Sys2Proof.Claims

/-- Settles O50: the cells and the flag from the sprite loop's two laws, the rest from the frame of the dispatch. -/
theorem drawXorsTheSprite : Obligations.DrawXorsTheSprite := by
  refine ⟨decodesAs_instrOfRow 22, fun s x y n => ?_⟩
  have he : exec (.drw x y n) s = .next _ := rfl
  refine ⟨_, he, fun px py hx hy => cellAt_exec_drw_ne_iff he hx hy, ?_, flag_exec_drw_le_one he,
    fun r hr => readV_exec_of_not_destRegs he hr, rfl, pcMovesBy_pcNext_of_pc_eq rfl,
    (exec_sameBut he).mono (by simp [mayWrite])⟩
  rw [flag_exec_drw_iff_covers he]
  refine exists_congr fun px => exists_congr fun py => ?_
  rw [and_assoc]
  exact and_congr_right fun hx => by rw [cellAt_eq _ hx]

/-- Settles O51: with the framebuffer restored, a cell that the second draw clears is one that the first draw set. -/
theorem drawTwiceRestores : Obligations.DrawTwiceRestores := by
  intro s t u x y n hx hy h₁ h₂
  have hfb : ∀ px py, pixelAt u.fb px py = pixelAt s.fb px py :=
    same_fb_of_exec_drw_twice h₁ h₂ (valV_exec_drw_of_ne_VF h₁ hx) (valV_exec_drw_of_ne_VF h₁ hy)
  refine ⟨hfb, ?_⟩
  simp only [flag_exec_drw_iff_clears h₂, hfb, and_comm]

/-- Settles O56: each draw obeys the laws of one draw, and the sprite itself is the same for both. -/
theorem secondDrawTakesNewCoordinates : Obligations.SecondDrawTakesNewCoordinates := by
  intro s x y n
  obtain ⟨t, h₁⟩ := exec_completes_of_ne_ret (i := .drw x y n) (by simp) s
  obtain ⟨u, h₂⟩ := exec_completes_of_ne_ret (i := .drw x y n) (by simp) t
  refine ⟨t, u, h₁, h₂, flag_exec_drw_iff_clears h₁, flag_exec_drw_le_one h₁,
    fun r hr => readV_exec_of_not_destRegs h₁ hr, fun px py hx hy => ?_, same_fb_of_exec_drw_twice h₁ h₂⟩
  rw [cellAt_exec_drw_ne_iff h₂ hx hy, spriteCovers_exec_drw h₁]

/-- Settles O49: every cell of the cleared framebuffer reads 0, and the rest is the frame of the dispatch. -/
theorem clearScreen : Obligations.ClearScreen := by
  refine ⟨decodesAs_instrOfRow 0, fun s => ?_⟩
  have he : exec .cls s = .next _ := rfl
  exact ⟨_, he, fun c _ => pixelAt_clearedFramebuffer _ _, rfl, pcMovesBy_pcNext_of_pc_eq rfl,
    (exec_sameBut he).mono (by simp [mayWrite])⟩

end Sys2Proof.Proofs
end

section
/-! PROOFS. The timers and the keys (45_timers_keys.md): what the key reads find among the 16 keys, and what is left of a timer at the
end of the step that reads or loads it. -/

namespace Sys2Proof.Machine

open Sys2Proof.Claims

variable {s u : State} {i : Instr}

/-! ### The key reads -/

/-- R200: an index of 16 or more names no key. -/
theorem keyPressed_iff (s : State) (n : Nat) : keyPressed s n = true ↔ ∃ k : Fin 16, k.val = n ∧ s.keys[k] = true := by
  constructor
  · intro h
    rcases Nat.lt_or_ge n 16 with hn | hn
    · exact ⟨⟨n, hn⟩, rfl, by rwa [← keyPressed_fin]⟩
    · rw [keyPressed_of_ge s hn] at h
      cases h
  · rintro ⟨k, rfl, hk⟩
    rw [keyPressed_fin, hk]

theorem keyOfV_iff (s : State) (x : Reg) : keyOfV s x = true ↔ ∃ k : Fin 16, k.val = valV s x ∧ s.keys[k] = true :=
  keyPressed_iff s (valV s x)

theorem not_keyOfV_iff (s : State) (x : Reg) :
    (!keyOfV s x) = true ↔ ¬∃ k : Fin 16, k.val = valV s x ∧ s.keys[k] = true := by
  rw [Bool.not_eq_true', ← Bool.not_eq_true, keyOfV_iff]

/-- R204: with no key pressed the dispatch leaves the state as it is, `PC` included. -/
theorem exec_ldVxK_of_no_key (x : Reg) (h : ∀ k : Fin 16, s.keys[k] = false) : exec (.ldVxK x) s = .next s := by
  rw [exec, execLdVxK, (highestKey_none s).2 h]

theorem exec_ldVxK_of_highest (x : Reg) {k : Fin 16} (hk : s.keys[k] = true) (hj : ∀ j : Fin 16, k < j → s.keys[j] = false) :
    exec (.ldVxK x) s = .next (pcNext (writeV s x (BitVec.ofNat 8 k.val))) := by
  rw [exec, execLdVxK, highestKey_some s k hk hj]

/-- A key index fits in a byte. -/
theorem toNat_keyIndex (k : Fin 16) : (BitVec.ofNat 8 k.val).toNat = k.val :=
  Nat.mod_eq_of_lt (show k.val < 2 ^ 8 by omega)

/-! ### The step around the dispatch -/

theorem step_of_exec (hd : decodeWord (fetch s) = some i) (he : exec i (beginStep s) = .next u) :
    step s = .next (endStep u) :=
  step_of_dispatchLeaves (.inl ⟨i, hd, he⟩)

/-- A step whose dispatch changes nothing changes what every step may change, and nothing else. -/
theorem sameBut_idleStep (s : State) : SameBut [.dt, .st, .ev, .inputs] s (endStep (beginStep s)) :=
  ((sameBut_beginStep s).trans (sameBut_endStep _)).mono (by simp)

end Sys2Proof.Machine

namespace Sys2Proof.Proofs

open Sys2Proof Sys2Proof.Machine Sys2Proof.Claims

/-- Settles O52: each skip is a `skipIf` on the key read or on its negation. -/
theorem keySkips : Obligations.KeySkips :=
  ⟨decodesAs_instrOfRow 23, decodesAs_instrOfRow 24, fun s x =>
    ⟨skipsWhen_of_skipIf rfl (keyOfV_iff s x), skipsWhen_of_skipIf rfl (not_keyOfV_iff s x)⟩⟩

/-- Settles O53: the scan finds the highest key or none; a step that waits keeps `PC` and memory, so it is fetched again. -/
theorem keyWaitTakesHighestKey : Obligations.KeyWaitTakesHighestKey := by
  refine ⟨decodesAs_instrOfRow 26, fun s x => ⟨exec_ldVxK_of_no_key x, fun k hk hj => ?_⟩, fun s x hd hnone => ?_⟩
  · exact writesOnlyV_of_writeV (exec_ldVxK_of_highest x hk hj) (toNat_keyIndex k)
  · have hs : step s = .next (endStep (beginStep s)) := step_of_exec hd (exec_ldVxK_of_no_key (s := beginStep s) x hnone)
    have hframe := sameBut_idleStep s
    refine ⟨_, hs, ?_, toNat_dt_endStep _, toNat_st_endStep _, hframe⟩
    rw [hframe.fetch_eq (by simp) (by simp), hd]

/-- Settles O54: the dispatch writes DT into `V[X]` before the timer pass, which leaves the registers alone. -/
theorem delayTimerIsReadBeforeItsTick : Obligations.DelayTimerIsReadBeforeItsTick := by
  refine ⟨decodesAs_instrOfRow 25, fun s x => writesOnlyV_of_writeV rfl rfl, fun s x hd => ?_⟩
  exact ⟨_, step_of_exec hd rfl, by simp, toNat_dt_endStep _⟩

/-- Settles O55: the timer pass and the tone of the step find the value that the dispatch has just loaded. -/
theorem timerLoads : Obligations.TimerLoads := by
  refine ⟨decodesAs_instrOfRow 27, decodesAs_instrOfRow 28, fun s x => ⟨?_, ?_⟩, fun s x hd => ?_, fun s x hd => ?_⟩
  · exact ⟨_, rfl, rfl, pcMovesBy_pcNext_of_pc_eq rfl, (sameBut_setDt s _).pcNext.mono (by simp)⟩
  · exact ⟨_, rfl, rfl, pcMovesBy_pcNext_of_pc_eq rfl, (sameBut_setSt s _).pcNext.mono (by simp)⟩
  · exact ⟨_, step_of_exec hd rfl, toNat_dt_endStep _⟩
  · exact ⟨_, step_of_exec hd rfl, toNat_st_endStep _, tone_endStep_iff rfl⟩

end Sys2Proof.Proofs
end

section
/-! PROOFS. The exceptions (60_exceptions.md): the timer pass at the end of every step, and the StackFault that the next step finds
again. -/

namespace Sys2Proof.Machine

open Sys2Proof.Claims

variable {s t : State} {l : List Part}

/-- R222: whether a step raises StackFault depends on the fetched opcode and on `SP` alone, so what keeps `PC`, memory and `SP`
keeps the fault. -/
theorem SameBut.stackFaults (h : SameBut l s t) (hpc : .pc ∉ l) (hmem : .mem ∉ l) (hsp : .sp ∉ l) (hf : StackFaults s) :
    StackFaults t := by
  have hsame : t.sp = s.sp := h .sp hsp
  rwa [StackFaults, h.fetch_eq hpc hmem, hsame]

end Sys2Proof.Machine

namespace Sys2Proof.Proofs

open Sys2Proof Sys2Proof.Machine Sys2Proof.Claims

/-- Settles O20: every step is `endStep` of what its dispatch left, and no dispatch has emitted the tone before it. -/
theorem timerPassEndsEveryStep : Obligations.TimerPassEndsEveryStep := by
  intro s t hs
  obtain ⟨u, hu, rfl⟩ := dispatchLeaves_of_step hs
  exact ⟨u, hu, toNat_dt_endStep u, toNat_st_endStep u, tone_endStep_iff (tone_dispatchLeaves hu)⟩

/-- Settles O33: the step raises the anomaly between its two frames, and no frame holds `PC`, memory or `SP`. -/
theorem stackFaultStepIsReported : Obligations.StackFaultStepIsReported := by
  intro s hf
  have hframe := sameBut_anomalyStep (.stackFault (fetch s)) s
  exact ⟨_, step_of_dispatchLeaves (dispatchLeaves_of_stackFaults hf), by simp [Anomaly.record],
    by simp [Anomaly.record, StepEvent.empty], toNat_dt_endStep _, toNat_st_endStep _, hframe,
    hframe.stackFaults (by simp) (by simp) (by simp) hf⟩

end Sys2Proof.Proofs
end

section
/-! PROOFS. Reset, Load and the hazards (70_reset_and_hazards.md): what a run keeps when every step keeps it, why a stalled run stays
where it is, and what Load does to memory. -/

namespace Sys2Proof.Machine

open Sys2Proof.Claims

variable {s t : State} {l : List Part}

/-! ### Runs -/

/-- An invariant whose states all have a next step holds at the end of every run, and no run stops. `P` is told the number of steps
taken, so that it can speak of a countdown. -/
theorem runSteps_of_invariant {P : Nat → State → Prop} (hstep : ∀ k s, P k s → ∃ t, step s = .next t ∧ P (k + 1) t) (n : Nat)
    (h : P 0 s) : ∃ t, runSteps n s = .next t ∧ P n t := by
  induction n generalizing s P with
  | zero => exact ⟨s, runSteps_zero s, h⟩
  | succ n ih =>
    obtain ⟨t, hs, ht⟩ := hstep 0 s h
    obtain ⟨u, hrun, hu⟩ := ih (P := fun k => P (k + 1)) (fun k => hstep (k + 1)) ht
    exact ⟨u, (runSteps_succ_of_next n hs).trans hrun, hu⟩

theorem SafeState.step_next (h : SafeState s) : ∃ t, step s = .next t ∧ SafeState t := by
  obtain ⟨t, hs⟩ := step_completes h.2
  exact ⟨t, hs, h.after_step hs⟩

/-! ### A stalled run (R257) -/

/-- Whether a state is stalled depends on the fetched opcode, `PC`, `SP` and the keys alone. -/
theorem SameBut.stalled (h : SameBut l s t) (hpc : .pc ∉ l) (hmem : .mem ∉ l) (hsp : .sp ∉ l) (hkeys : .keys ∉ l)
    (hs : Stalled s) : Stalled t := by
  have hfetch : fetch t = fetch s := h.fetch_eq hpc hmem
  have hpc' : t.pc = s.pc := h .pc hpc
  have hkeys' : t.keys = s.keys := h .keys hkeys
  obtain ⟨nnn, hd, hjump⟩ | ⟨x, hd, hnone⟩ | hd | hf := hs
  · exact .inl ⟨nnn, by rw [hfetch, hd], by rw [hpc', hjump]⟩
  · exact .inr (.inl ⟨x, by rw [hfetch, hd], by rwa [hkeys']⟩)
  · exact .inr (.inr (.inl (by rw [hfetch, hd])))
  · exact .inr (.inr (.inr (h.stackFaults hpc hmem hsp hf)))

/-- R257: in each of the four ways the dispatch leaves everything but the event as it was. The jump writes `PC`, with the value that
it has. -/
theorem dispatchLeaves_of_stalled (h : Stalled s) : ∃ u, DispatchLeaves s u ∧ SameBut [.ev] s u := by
  have hbegin := sameBut_beginStep s
  obtain ⟨nnn, hd, hjump⟩ | ⟨x, hd, hnone⟩ | hd | hf := h
  · have hpc : jumpTarget nnn = s.pc := BitVec.eq_of_toNat_eq ((toNat_jumpTarget nnn).trans hjump.symm)
    exact ⟨_, .inl ⟨_, hd, rfl⟩, (hbegin.trans (sameBut_setPc _ _)).of_restored hpc⟩
  · exact ⟨_, .inl ⟨_, hd, exec_ldVxK_of_no_key (s := beginStep s) x hnone⟩, hbegin⟩
  · exact ⟨_, dispatchLeaves_of_unrecognized hd, (hbegin.trans (sameBut_raiseAnomaly _ _)).mono (by simp)⟩
  · exact ⟨_, dispatchLeaves_of_stackFaults hf, (hbegin.trans (sameBut_raiseAnomaly _ _)).mono (by simp)⟩

/-- `t` is where a stalled run from `s` stands after `k` steps: `k` is off each timer, and the run is stalled still. -/
def StalledAfter (s : State) (k : Nat) (t : State) : Prop :=
  SameBut [.dt, .st, .ev, .inputs] s t ∧ t.dt.toNat = s.dt.toNat - k ∧ t.st.toNat = s.st.toNat - k ∧ Stalled t

theorem stalledAfter_zero (h : Stalled s) : StalledAfter s 0 s := ⟨.refl _ s, rfl, rfl, h⟩

theorem StalledAfter.step_next {k : Nat} (h : StalledAfter s k t) : ∃ t', step t = .next t' ∧ StalledAfter s (k + 1) t' := by
  obtain ⟨hframe, hdt, hst, hstalled⟩ := h
  obtain ⟨u, hu, hev⟩ := dispatchLeaves_of_stalled hstalled
  have hstep : SameBut [.dt, .st, .ev, .inputs] t (endStep u) := (hev.trans (sameBut_endStep u)).mono (by simp)
  have hudt : u.dt = t.dt := hev .dt (by simp)
  have hust : u.st = t.st := hev .st (by simp)
  refine ⟨endStep u, step_of_dispatchLeaves hu, (hframe.trans hstep).mono (by simp), ?_, ?_, ?_⟩
  · rw [toNat_dt_endStep, hudt, hdt, Nat.sub_sub]
  · rw [toNat_st_endStep, hust, hst, Nat.sub_sub]
  · exact hstep.stalled (by simp) (by simp) (by simp) (by simp) hstalled

/-! ### Load (R253) -/

theorem hostLoad_of_too_large {rom : List Byte} (s : State) (h : 3584 < rom.length) : hostLoad rom s = (s, .romTooLarge) :=
  if_pos h

theorem hostLoad_of_fits {rom : List Byte} (s : State) (h : rom.length ≤ 3584) :
    hostLoad rom s = (memWriteList s 0x200 rom, .ok) :=
  if_neg (Nat.not_lt.2 h)

/-- 0x200 and 3584 bytes make 4096: the bytes of a program that fits do not wrap, and every address outside them is left alone. -/
theorem memRead_memWriteList_outside_rom {rom : List Byte} {a : Nat} (s : State) (hl : rom.length ≤ 3584) (ha : a < 4096)
    (hout : a < 0x200 ∨ 0x200 + rom.length ≤ a) : memRead (memWriteList s 0x200 rom) a = memRead s a :=
  memRead_memWriteList_outside s 0x200 a rom fun j hj => by omega

end Sys2Proof.Machine

namespace Sys2Proof.Proofs

open Sys2Proof Sys2Proof.Machine Sys2Proof.Claims

/-- Settles O24: a safe state's step completes in a safe state, so every run does. -/
theorem runsNeverStop : Obligations.RunsNeverStop :=
  fun n _ h => runSteps_of_invariant (P := fun _ => SafeState) (fun _ _ => SafeState.step_next) n h

/-- Settles O25: the frame, the countdown and the stall itself together are kept by every step. -/
theorem stalledRunOnlyCountsDown : Obligations.StalledRunOnlyCountsDown :=
  fun n s h => runSteps_of_invariant (P := StalledAfter s) (fun _ _ => StalledAfter.step_next) n (stalledAfter_zero h)

/-- Settles O2: a program that fits is one list of bytes written from 0x200 on; a longer one is refused before any write. -/
theorem loadCopiesOrRefusesWhole : Obligations.LoadCopiesOrRefusesWhole := by
  refine fun rom s => ⟨hostLoad_of_too_large s, fun hl => ?_⟩
  rw [hostLoad_of_fits s hl]
  exact ⟨rfl, fun j hj => memRead_memWriteList_inside s 0x200 j rom (by omega) hj,
    fun a ha hout => memRead_memWriteList_outside_rom s hl ha hout, sameBut_memWriteList s 0x200 rom⟩

/-- Settles O1: Reset takes only the font, the random inputs and the step count from the state, and leaves all three. -/
theorem resetGivesResetValues : Obligations.ResetGivesResetValues :=
  fun s => ⟨hasResetValues_hostReset s, rfl⟩

end Sys2Proof.Proofs
end
